-- ==== Sys2Proof/Word.lean ====
section
/-! DEFINITION. The word types of the Carbon 8-bit core (00_scope.md R8: data width 8 bits, operand
field 3 bits). Every register, accumulator, RAM, port and ROM value is one unsigned byte. -/

namespace Sys2Proof

/-- The one data type of the core (R8, R89). -/
abbrev Byte := BitVec 8

/-- The 3-bit operand field of an instruction word (30_encoding.md R59). -/
abbrev Operand := BitVec 3

end Sys2Proof
end

