-- ==== Sys2Proof/Syntax.lean ====
section
/-! DEFINITION. The instructions: one constructor for each row of spec/opcode_table.json, in the
table's order (30_encoding.md R65). Each holds the operand field of its word under the one meaning
its opcode class gives it (R63). The immediate of LDI, ICS and BRC is not a field: the dispatched
word is one byte, and the instruction itself fetches its immediate while it runs
(40_fetch_dispatch.md R81, R83; log 15). -/

namespace Sys2Proof

/-- Operand class `reg`: register address 0 to 7, 0 being the zero register (R63). -/
abbrev RegAddr := Operand
/-- Operand class `ram`: RAM address 0 to 7 (R63). -/
abbrev RamAddr := Operand
/-- Operand class `port`: port number 0 to 7 (R63). -/
abbrev PortNum := Operand
/-- Operand class `shamt`: shift count 0 to 7 (R63). -/
abbrev ShiftCount := Operand
/-- Operand class `cond`: condition code 1 to 7; 0 is fatal when executed (R63, R67). -/
abbrev CondCode := Operand
/-- Operand class `none`: three bits that are kept and ignored (R63, D11; log 11). -/
abbrev Ignored := Operand

/-- The instruction words of the core. -/
inductive Instr where
  | nop (u : Ignored)
  | add (r : RegAddr)
  | sub (r : RegAddr)
  | bsub (r : RegAddr)
  | or (r : RegAddr)
  | nor (r : RegAddr)
  | and (r : RegAddr)
  | nand (r : RegAddr)
  | xor (r : RegAddr)
  | xnor (r : RegAddr)
  | ldi (r : RegAddr)
  | adr (r : RegAddr)
  | rld (r : RegAddr)
  | rst (r : RegAddr)
  | mst (a : RamAddr)
  | mld (a : RamAddr)
  | ics (c : CondCode)
  | jid (r : RegAddr)
  | brc (c : CondCode)
  | dec (u : Ignored)
  | cmp (r : RegAddr)
  | bsr (n : ShiftCount)
  | bsl (n : ShiftCount)
  | pst (p : PortNum)
  | pld (p : PortNum)
  | inc (u : Ignored)
  /-- Opcode 26: executing it raises `IllegalOpcode` (R66; log 16). -/
  | illegal26 (u : Ignored)
  /-- Opcode 27: executing it raises `IllegalOpcode` (R66). -/
  | illegal27 (u : Ignored)
  /-- Opcode 28: executing it raises `IllegalOpcode` (R66). -/
  | illegal28 (u : Ignored)
  /-- Opcode 29: executing it raises `IllegalOpcode` (R66). -/
  | illegal29 (u : Ignored)
  /-- Opcode 30: executing it raises `IllegalOpcode` (R66). -/
  | illegal30 (u : Ignored)
  | hlt (u : Ignored)
  deriving DecidableEq, Repr

/-- The two formats (30_encoding.md R60): `b` is the word alone, `bi` the word and an immediate. -/
inductive Format where
  | b
  | bi
  deriving DecidableEq, Repr

/-- The format is told from the opcode alone: LDI, ICS and BRC take an immediate (R60, R61). -/
def Instr.format : Instr → Format
  | .nop _ | .add _ | .sub _ | .bsub _ | .or _ | .nor _ | .and _ | .nand _ | .xor _ | .xnor _ => .b
  | .adr _ | .rld _ | .rst _ | .mst _ | .mld _ | .jid _ | .dec _ | .cmp _ | .bsr _ | .bsl _ => .b
  | .pst _ | .pld _ | .inc _ | .hlt _ => .b
  | .illegal26 _ | .illegal27 _ | .illegal28 _ | .illegal29 _ | .illegal30 _ => .b
  | .ldi _ | .ics _ | .brc _ => .bi

/-- An instruction as it is laid out in a program image: its word and, for format `bi`, the
immediate byte after it (R60, R69). `WellFormed.lean` says when the two fit. -/
structure ImageInstr where
  instr : Instr
  imm   : Option Byte
  deriving DecidableEq, Repr

end Sys2Proof
end

