-- ==== Sys2Proof/WellFormed.lean ====
section
/-! DEFINITION. Well-formedness. Every one of the 256 words decodes (40_fetch_dispatch.md R76), and
30_encoding.md R68 sorts them: 214 are instructions with a defined effect, 2 are ICS and BRC with
the fatal condition 0, 40 are illegal opcodes. A term is well formed when it is of the first sort;
a laid out instruction is well formed when, besides, it has an immediate exactly if its format has
one (R60). -/

namespace Sys2Proof

/-- The three sorts of words of 30_encoding.md R68. -/
inductive WordClass where
  | defined
  | fatalCondition
  | illegalOpcode
  deriving DecidableEq, Repr

/-- R66, R67, R68. -/
def Instr.wordClass : Instr → WordClass
  | .illegal26 _ | .illegal27 _ | .illegal28 _ | .illegal29 _ | .illegal30 _ => .illegalOpcode
  | .ics c | .brc c => if c = 0 then .fatalCondition else .defined
  | .nop _ | .add _ | .sub _ | .bsub _ | .or _ | .nor _ | .and _ | .nand _ | .xor _ | .xnor _
  | .ldi _ | .adr _ | .rld _ | .rst _ | .mst _ | .mld _ | .jid _ | .dec _ | .cmp _ | .bsr _
  | .bsl _ | .pst _ | .pld _ | .inc _ | .hlt _ => .defined

/-- The word has a defined effect that is not a raise (R68). -/
def Instr.wellFormed (i : Instr) : Bool := i.wordClass == .defined

/-- The immediate is present exactly for format `bi` (R60). -/
def ImageInstr.immFits (c : ImageInstr) : Bool :=
  match c.instr.format, c.imm with
  | .b, none => true
  | .bi, some _ => true
  | .b, some _ => false
  | .bi, none => false

/-- A laid out instruction that a program may hold and run without a raise of its own word. -/
def ImageInstr.wellFormed (c : ImageInstr) : Bool := c.instr.wellFormed && c.immFits

end Sys2Proof
end

