-- ==== Sys2Proof/Decode.lean ====
section
/-! DEFINITION. Decoding and encoding (30_encoding.md). `decodeWord` is the core's own decoder: total
on the 256 words, for "Decoding cannot fail" (40_fetch_dispatch.md R76); an illegal opcode decodes to
its own constructor, whose execution raises. `decodeBytes` reads one laid out instruction from a byte
sequence, rejecting by name; `encodeWord` and `encodeBytes` are written from the same table. -/

namespace Sys2Proof

/-- `opcode = w[7:3]` (R59). -/
def opcodeOf (w : Byte) : BitVec 5 := w.extractLsb' 3 5

/-- `op = w[2:0]` (R59). -/
def operandOf (w : Byte) : Operand := w.extractLsb' 0 3

/-- The opcode map (R65), arm by arm; a 5-bit opcode above 30 is 31. -/
def decodeWord (w : Byte) : Instr :=
  let op := operandOf w
  match (opcodeOf w).toNat with
  | 0 => .nop op
  | 1 => .add op
  | 2 => .sub op
  | 3 => .bsub op
  | 4 => .or op
  | 5 => .nor op
  | 6 => .and op
  | 7 => .nand op
  | 8 => .xor op
  | 9 => .xnor op
  | 10 => .ldi op
  | 11 => .adr op
  | 12 => .rld op
  | 13 => .rst op
  | 14 => .mst op
  | 15 => .mld op
  | 16 => .ics op
  | 17 => .jid op
  | 18 => .brc op
  | 19 => .dec op
  | 20 => .cmp op
  | 21 => .bsr op
  | 22 => .bsl op
  | 23 => .pst op
  | 24 => .pld op
  | 25 => .inc op
  | 26 => .illegal26 op
  | 27 => .illegal27 op
  | 28 => .illegal28 op
  | 29 => .illegal29 op
  | 30 => .illegal30 op
  | _ => .hlt op

/-- The opcode of an instruction (R65). -/
def Instr.opcode : Instr → Nat
  | .nop _ => 0
  | .add _ => 1
  | .sub _ => 2
  | .bsub _ => 3
  | .or _ => 4
  | .nor _ => 5
  | .and _ => 6
  | .nand _ => 7
  | .xor _ => 8
  | .xnor _ => 9
  | .ldi _ => 10
  | .adr _ => 11
  | .rld _ => 12
  | .rst _ => 13
  | .mst _ => 14
  | .mld _ => 15
  | .ics _ => 16
  | .jid _ => 17
  | .brc _ => 18
  | .dec _ => 19
  | .cmp _ => 20
  | .bsr _ => 21
  | .bsl _ => 22
  | .pst _ => 23
  | .pld _ => 24
  | .inc _ => 25
  | .illegal26 _ => 26
  | .illegal27 _ => 27
  | .illegal28 _ => 28
  | .illegal29 _ => 29
  | .illegal30 _ => 30
  | .hlt _ => 31

/-- The operand field of an instruction (R63). -/
def Instr.operand : Instr → Operand
  | .nop u | .dec u | .inc u | .hlt u => u
  | .illegal26 u | .illegal27 u | .illegal28 u | .illegal29 u | .illegal30 u => u
  | .add r | .sub r | .bsub r | .or r | .nor r | .and r | .nand r | .xor r | .xnor r => r
  | .ldi r | .adr r | .rld r | .rst r | .jid r | .cmp r => r
  | .mst a | .mld a => a
  | .ics c | .brc c => c
  | .bsr n | .bsl n => n
  | .pst p | .pld p => p

/-- `w = opcode*8 + operand` (R59). -/
def encodeWord (i : Instr) : Byte := BitVec.ofNat 8 (i.opcode * 8 + i.operand.toNat)

/-- Why a byte sequence holds no laid out instruction. -/
inductive DecodeError where
  /-- There is no byte to decode. Raised by `decodeBytes` alone; safe: nothing runs from it. -/
  | noWord
  /-- The word has format `bi` and no byte follows it. Raised by `decodeBytes` alone; safe: nothing
  runs from it. -/
  | noImmediate
  deriving DecidableEq, Repr

/-- One laid out instruction from the front of a byte sequence, with the bytes after it (R60, R61). -/
def decodeBytes : List Byte → Except DecodeError (ImageInstr × List Byte)
  | [] => .error .noWord
  | w :: rest =>
    match (decodeWord w).format, rest with
    | .b, rest => .ok (⟨decodeWord w, none⟩, rest)
    | .bi, imm :: rest => .ok (⟨decodeWord w, some imm⟩, rest)
    | .bi, [] => .error .noImmediate

/-- The bytes of a laid out instruction: its word, then its immediate if it has one (R60). -/
def encodeBytes (c : ImageInstr) : List Byte := encodeWord c.instr :: c.imm.toList

/-- The low `nbits` of `w` laid out as the hardware stores them: the first word at the lowest
address, then the byte after it (zero above `nbits`), two bytes being the longest instruction (R60). -/
def tableBytes (nbits w : Nat) : List Byte :=
  let v := w % 2 ^ nbits
  [BitVec.ofNat 8 v, BitVec.ofNat 8 (v / 256)]

/-- What the decoder reads from an instruction numbered as spec/opcode_table.json numbers it. -/
def decodeTableWord (nbits w : Nat) : Option Instr :=
  match decodeBytes (tableBytes nbits w) with
  | .ok (c, _) => some c.instr
  | .error _ => none

end Sys2Proof
end

