-- ==== Sys2Proof/Config.lean ====
section
/-! DEFINITION. What the design fixes (00_scope.md R8). The spec leaves no size and no value to an
implementation ("the model takes no size as an argument"), so nothing here is opaque. -/

namespace Sys2Proof.Config

/-- Bytes of instruction ROM (20_memory.md R37). -/
def romSize : Nat := 1024

/-- Words of one ROM page (20_memory.md R37). -/
def pageWords : Nat := 32

/-- Bytes of data RAM; an operand reaches the first eight of them (20_memory.md R41). -/
def ramSize : Nat := 32

/-- The one port with an effect, the console (20_memory.md R43, R44). -/
def consolePort : Operand := 7

/-- What a ROM or RAM byte that nothing has written holds: all state is zero at construction
(10_state.md R36). -/
def unwrittenByte : Byte := 0

end Sys2Proof.Config
end

