-- ==== Sys2Proof/Machine/Memory.lean ====
section
/-! DEFINITION. ROM and RAM contents: a list of (address, byte) pairs in one canonical form, addresses
strictly rising, and no entry that equals what an unlisted address reads as, the reset value 0
(10_state.md R36; log 17). -/

namespace Sys2Proof.Machine

/-- The contents of an address space, sparse. -/
abbrev Memory := List Host.Cell

/-- The byte at an address; an unlisted address reads as its reset value (R36). -/
def Memory.read : Memory → Nat → Byte
  | [], _ => Config.unwrittenByte
  | (b, v) :: m, a => if a = b then v else Memory.read m a

/-- Store one byte, keeping the canonical form. -/
def Memory.write : Memory → Nat → Byte → Memory
  | [], a, v => if v = Config.unwrittenByte then [] else [(a, v)]
  | (b, u) :: m, a, v =>
    if a < b then
      if v = Config.unwrittenByte then (b, u) :: m else (a, v) :: (b, u) :: m
    else if a = b then
      if v = Config.unwrittenByte then m else (a, v) :: m
    else (b, u) :: Memory.write m a v

/-- Store a sequence of bytes from an address upwards (70_reset_and_hazards.md R142). -/
def Memory.writeBytes : Memory → Nat → List Byte → Memory
  | m, _, [] => m
  | m, a, v :: vs => Memory.writeBytes (m.write a v) (a + 1) vs

/-- The canonical form, for an address space of `size` bytes. -/
abbrev Memory.wf (size : Nat) (m : Memory) : Prop :=
  m.Pairwise (fun c d => c.1 < d.1) ∧ ∀ c ∈ m, c.1 < size ∧ c.2 ≠ Config.unwrittenByte

end Sys2Proof.Machine
end

