-- ==== Sys2Proof/Machine/State.lean ====
section
/-! DEFINITION. The architectural state: exactly the tuple of 10_state.md R14, as plain data, and its
value after reset (R36, R141). -/

namespace Sys2Proof.Machine

/-- The three 1-bit flags (R22). -/
structure Flags where
  zero  : Bool
  msb   : Bool
  carry : Bool
  deriving DecidableEq, Repr

/-- A fault record (R33): one constructor for each kind of 60_exceptions.md R125, holding exactly the
fields that kind records. -/
inductive FaultRecord where
  /-- An opcode of 26 to 30 was dispatched (R121). -/
  | illegalOpcode (word : Byte) (addr : Nat)
  /-- ICS or BRC with condition operand 0 (R122). -/
  | illegalCondition (word : Byte) (addr : Nat) (operand : CondCode)
  /-- The fetch address is 1024 or more (R123). -/
  | fetchOutOfRange (addr : Nat)
  /-- The address of a needed immediate is 1024 or more (R124). -/
  | immediateOutOfRange (addr : Nat) (word : Byte) (iaddr : Nat)
  deriving DecidableEq, Repr

/-- The machine's state (R14). -/
structure State where
  /-- `x[1]` to `x[7]`; register address 0 is no storage (R15). -/
  x       : Vector Byte 7
  /-- The accumulator (R20). -/
  acc     : Byte
  /-- `zero`, `msb`, `carry` (R22). -/
  flags   : Flags
  /-- The program counter, 6 bits; 0 to 32 are reached (R26, R27; log 13). -/
  pc      : BitVec 6
  /-- The page register (R29). -/
  page    : Byte
  /-- Set by HLT, never cleared (R31). -/
  halted  : Bool
  /-- Data memory (20_memory.md R41). -/
  ram     : Memory
  /-- Instruction memory (20_memory.md R37). -/
  rom     : Memory
  /-- The console buffer, oldest byte first (R32). -/
  console : List Byte
  /-- The fault record (R33). -/
  fault   : Option FaultRecord
  deriving DecidableEq, Repr

/-- Why no step exists. The spec gives the core no step once it has stopped (40_fetch_dispatch.md
R73); the four fatal conditions themselves are no `Fault`: they are next states with a fault record. -/
inductive Fault where
  /-- Raised by `step` in a state with `halted = true`: "A state with `halted = true` has no step"
  (R73, D13, N4). The machine is stuck; unsafe only if the hardware, stepped again after HLT, ran on
  (log 4). -/
  | halted
  /-- Raised by `step` in a state that holds a fault record: "A state with a fault record has no
  step" (R73, D12, N5). The machine is stuck; safe: nothing can be proved of a run past it (log 4). -/
  | faulted
  deriving DecidableEq, Repr

/-- Why an instruction has no meaning in the model. -/
inductive Refusal where
  /-- Raised by `exec` for an instruction whose meaning is not written; safe. No instruction of this
  model is left so. -/
  | notModelled (mnemonic : String)
  deriving DecidableEq, Repr

/-- What a step or an instruction answers. -/
abbrev Result := Host.Outcome State Fault Refusal

/-- The state after reset, before a program is loaded: every element zero, false or empty (R36,
R141). -/
def State.reset : State where
  x       := Vector.replicate 7 0
  acc     := 0
  flags   := ⟨false, false, false⟩
  pc      := 0
  page    := 0
  halted  := false
  ram     := []
  rom     := []
  console := []
  fault   := none

end Sys2Proof.Machine
end

