-- ==== Sys2Proof/Machine/Flags.lean ====
section
/-! DEFINITION. The flag computations of 41_alu.md section 1. Each answers the wrapped result and all
three flags; the exact result is computed on unbounded integers and narrowed at the end. -/

namespace Sys2Proof.Machine

/-- `u8(n)`: `n mod 256` for any integer (00_scope.md section 5). -/
def u8 (n : Int) : Byte := BitVec.ofInt 8 n

/-- `zero` and `msb` of a stored result, with the carry the instruction gives (R86, R87, R88). -/
def resultFlags (r : Byte) (carry : Bool) : Flags :=
  { zero := r == 0, msb := r.getLsbD 7, carry := carry }

/-- `flags_add(a, b)` (R86): the wrapped sum; carry iff the unbounded sum differs from it. -/
def flagsAdd (a b : Byte) : Byte × Flags :=
  let s : Int := (a.toNat : Int) + (b.toNat : Int)
  let r := u8 s
  (r, resultFlags r (decide (s ≠ (r.toNat : Int))))

/-- `flags_sub(a, b)` (R87): the wrapped `a - b`; carry iff the unbounded difference differs from it. -/
def flagsSub (a b : Byte) : Byte × Flags :=
  let d : Int := (a.toNat : Int) - (b.toNat : Int)
  let r := u8 d
  (r, resultFlags r (decide (d ≠ (r.toNat : Int))))

/-- SUB's own rule (R91): the result is `acc - x`, the carry is the borrow of the reversed difference
`x - acc`. UNVERIFIED (D9, C4; log 9): the spec's reading of its source's "reversed operand order". -/
def flagsSubQuirk (x acc : Byte) : Byte × Flags :=
  let r := u8 ((acc.toNat : Int) - (x.toNat : Int))
  (r, resultFlags r (decide (x.toNat < acc.toNat)))

/-- `flags_logic(r)` (R88): a bitwise or shift result, carry cleared. -/
def flagsLogic (r : Byte) : Byte × Flags := (r, resultFlags r false)

end Sys2Proof.Machine
end

