-- ==== Sys2Proof/Machine/Operands.lean ====
section
/-! DEFINITION. How operands and immediates are used (30_encoding.md R63, R64): every one unsigned,
nothing sign-extended, nothing scaled. -/

namespace Sys2Proof.Machine

/-- `zext`: a 3-bit operand as a RAM address, 0 to 7 (20_memory.md R42). -/
def ramAddress (a : RamAddr) : Nat := a.toNat

/-- ICS: `imm >> 3`, the top five bits, 0 to 31 (R64, 43_control.md R114). -/
def pageOfImm (imm : Byte) : Byte := imm >>> 3

/-- BRC: `(imm & 0b11111) >> 3`, the literal mask then shift, 0 to 3 (R64, 43_control.md R116). -/
def offsetOfImm (imm : Byte) : BitVec 6 := ((imm &&& 0b11111#8) >>> 3).setWidth 6

/-- JID: `x[op] & 0b11111`, 0 to 31 (R64, 43_control.md R115). -/
def offsetOfReg (v : Byte) : BitVec 6 := (v &&& 0b11111#8).setWidth 6

/-- The seven legal conditions of ICS and BRC, codes 1 to 7 in order: Z, NZ, M, NM, C (`cs`), NC (`cc`),
AL (43_control.md R112). -/
inductive Cond where
  | z
  | nz
  | m
  | nm
  | cs
  | cc
  | al
  deriving DecidableEq, Repr

/-- The condition an operand names; operand 0 names none (R112). -/
def condOf (c : CondCode) : Option Cond :=
  match c.toNat with
  | 1 => some .z
  | 2 => some .nz
  | 3 => some .m
  | 4 => some .nm
  | 5 => some .cs
  | 6 => some .cc
  | 7 => some .al
  | _ => none

/-- When a condition is true (R112). -/
def condHolds (k : Cond) (f : Flags) : Bool :=
  match k with
  | .z => f.zero
  | .nz => !f.zero
  | .m => f.msb
  | .nm => !f.msb
  | .cs => f.carry
  | .cc => !f.carry
  | .al => true

end Sys2Proof.Machine
end

