-- ==== Sys2Proof/Machine/Ops.lean ====
section
/-! DEFINITION. The named operations over the state: registers, advance, ROM reads, RAM, ports, direct
writes of control state, and the one shared operation that raises a fault. -/

namespace Sys2Proof.Machine

/-! ### Register file and accumulator -/

/-- `x[r]`: address 0 reads 0 (10_state.md R15, R16). -/
def State.readReg (s : State) (r : RegAddr) : Byte :=
  if r = 0 then 0 else (s.x[r.toNat - 1]?).getD 0

/-- `x[r] <- v`: a write to address 0 is discarded (R17). -/
def State.writeReg (s : State) (r : RegAddr) (v : Byte) : State :=
  { s with x := if r = 0 then s.x else s.x.setIfInBounds (r.toNat - 1) v }

/-- `acc <- v`. -/
def State.setAcc (s : State) (v : Byte) : State := { s with acc := v }

/-- Write all three flags together (R23). -/
def State.setFlags (s : State) (f : Flags) : State := { s with flags := f }

/-! ### Program counter and page -/

/-- The program counter after `inc_pc()`: 0 from 32, else one more (40_fetch_dispatch.md R78). The
values 33 to 63 are never reached; at 63 the six bits wrap (log 13). -/
def nextPc (pc : BitVec 6) : BitVec 6 := if pc = 32 then 0 else pc + 1

/-- The page after `inc_pc()`: one more, modulo 256, exactly when the program counter is 32 (R78). -/
def nextPage (pc : BitVec 6) (page : Byte) : Byte := if pc = 32 then page + 1 else page

/-- `inc_pc()` (R78). -/
def State.incPc (s : State) : State :=
  { s with pc := nextPc s.pc, page := nextPage s.pc s.page }

/-- `pc <- target` (JID, taken BRC). -/
def State.setPc (s : State) (target : BitVec 6) : State := { s with pc := target }

/-- `page <- v` (taken ICS). -/
def State.setPage (s : State) (v : Byte) : State := { s with page := v }

/-- `halted <- true` (HLT, 10_state.md R31). -/
def State.halt (s : State) : State := { s with halted := true }

/-! ### Faults -/

/-- `raise K(info)` (60_exceptions.md R120): the record is set and every other element keeps the value
it has. UNVERIFIED (D12; logs 1, 3). -/
def State.raise (s : State) (f : FaultRecord) : State := { s with fault := some f }

/-! ### Instruction memory -/

/-- `ea() = page*32 + pc`, unbounded, no mask and no wrap (20_memory.md R39). -/
def State.ea (s : State) : Nat := s.page.toNat * Config.pageWords + s.pc.toNat

/-- `Fetch()` (40_fetch_dispatch.md R75): the word at the effective address, or the fault. UNVERIFIED
(D5; log 5): the source leaves the address beyond ROM undefined. -/
def State.fetch (s : State) : Except FaultRecord Byte :=
  if s.ea < Config.romSize then .ok (s.rom.read s.ea) else .error (.fetchOutOfRange s.ea)

/-- `FetchImm()` (R81) in a state that has advanced, for the word `w` fetched at `a`: the byte at the
effective address, or the fault; no advance. UNVERIFIED (D6; log 6). -/
def State.fetchImm (s : State) (w : Byte) (a : Nat) : Except FaultRecord Byte :=
  if s.ea < Config.romSize then .ok (s.rom.read s.ea)
  else .error (.immediateOutOfRange s.ea w a)

/-- `cond(c)` (43_control.md R112) for the word `w` fetched at `a`: a truth value, or the fault for
operand 0. -/
def State.cond (s : State) (c : CondCode) (w : Byte) (a : Nat) : Except FaultRecord Bool :=
  match condOf c with
  | some k => .ok (condHolds k s.flags)
  | none => .error (.illegalCondition w a c)

/-- Place one byte in ROM, where ROM has the address (20_memory.md R37); no instruction does this. -/
def State.placeRom (s : State) (a : Nat) (v : Byte) : State :=
  { s with rom := if a < Config.romSize then s.rom.write a v else s.rom }

/-! ### Data memory -/

/-- `MemRead(a, 1)` (20_memory.md R42). -/
def State.memRead (s : State) (a : RamAddr) : Byte := s.ram.read (ramAddress a)

/-- `MemWrite(a, 1, v)` (R42). -/
def State.memWrite (s : State) (a : RamAddr) (v : Byte) : State :=
  { s with ram := s.ram.write (ramAddress a) v }

/-! ### Ports -/

/-- `PortRead(p)`: 0 for every port, no side effect (20_memory.md R45). -/
def State.portRead (_s : State) (_p : PortNum) : Byte := 0

/-- `PortWrite(p, v)`: port 7 appends to the console buffer, every other port drops the byte (R44,
60_exceptions.md R135). -/
def State.portWrite (s : State) (p : PortNum) (v : Byte) : State :=
  { s with console := if p = Config.consolePort then s.console ++ [v] else s.console }

/-! ### Shapes shared by the meanings -/

/-- Finish a step in `k` of the value a partial operation gives, or in the fault it raises. -/
def State.orRaise {α : Type} (s : State) (r : Except FaultRecord α) (k : α → State) : State :=
  match r with
  | .ok v => k v
  | .error f => s.raise f

/-- Write a computed byte to the accumulator and its flags (41_alu.md). -/
def State.setAccFlags (s : State) (r : Byte × Flags) : State := (s.setAcc r.1).setFlags r.2

/-- ICS and BRC (43_control.md R114, R116), in the advanced state `s`, for the word `w` fetched at `a`:
the condition first (UNVERIFIED, D19; log 12); if true the immediate is fetched and given to `taken`,
with no second advance (UNVERIFIED, D8; log 8); if false one more advance skips the immediate unread
(UNVERIFIED, D7; log 7). -/
def State.conditional (s : State) (c : CondCode) (w : Byte) (a : Nat) (taken : Byte → State) : State :=
  s.orRaise (s.cond c w a) fun holds =>
    if holds then s.orRaise (s.fetchImm w a) taken else s.incPc

end Sys2Proof.Machine
end

