-- ==== Sys2Proof/Machine/Alu.lean ====
section
/-! DEFINITION. Arithmetic, logic and shift instructions (41_alu.md). The state given to a meaning is
that at the start of the step; every meaning advances first (40_fetch_dispatch.md R77). -/

namespace Sys2Proof.Machine

/-- R90: `acc <- flags_add(x[op], acc)`. -/
def execAdd (r : RegAddr) (s : State) : Result :=
  .next (s.incPc.setAccFlags (flagsAdd (s.incPc.readReg r) s.incPc.acc))

/-- R91: `acc - x[op]`, carry from the reversed difference (log 9). -/
def execSub (r : RegAddr) (s : State) : Result :=
  .next (s.incPc.setAccFlags (flagsSubQuirk (s.incPc.readReg r) s.incPc.acc))

/-- R92: `acc <- flags_sub(x[op], acc)`. -/
def execBsub (r : RegAddr) (s : State) : Result :=
  .next (s.incPc.setAccFlags (flagsSub (s.incPc.readReg r) s.incPc.acc))

/-- R93. -/
def execOr (r : RegAddr) (s : State) : Result :=
  .next (s.incPc.setAccFlags (flagsLogic (s.incPc.acc ||| s.incPc.readReg r)))

/-- R94. -/
def execNor (r : RegAddr) (s : State) : Result :=
  .next (s.incPc.setAccFlags (flagsLogic (~~~(s.incPc.acc ||| s.incPc.readReg r))))

/-- R95. -/
def execAnd (r : RegAddr) (s : State) : Result :=
  .next (s.incPc.setAccFlags (flagsLogic (s.incPc.acc &&& s.incPc.readReg r)))

/-- R96. -/
def execNand (r : RegAddr) (s : State) : Result :=
  .next (s.incPc.setAccFlags (flagsLogic (~~~(s.incPc.acc &&& s.incPc.readReg r))))

/-- R97. -/
def execXor (r : RegAddr) (s : State) : Result :=
  .next (s.incPc.setAccFlags (flagsLogic (s.incPc.acc ^^^ s.incPc.readReg r)))

/-- R98. -/
def execXnor (r : RegAddr) (s : State) : Result :=
  .next (s.incPc.setAccFlags (flagsLogic (~~~(s.incPc.acc ^^^ s.incPc.readReg r))))

/-- R99: `x[op] <- flags_add(x[op], acc)`; the flags are those of the sum also when the write is
discarded (D10; log 10). -/
def execAdr (r : RegAddr) (s : State) : Result :=
  let sum := flagsAdd (s.incPc.readReg r) s.incPc.acc
  .next ((s.incPc.writeReg r sum.1).setFlags sum.2)

/-- R100: `acc <- flags_sub(acc, 1)`; the operand bits are ignored (D11; log 11). -/
def execDec (_u : Ignored) (s : State) : Result :=
  .next (s.incPc.setAccFlags (flagsSub s.incPc.acc 1))

/-- R101: the flags of `flags_sub(x[op], acc)`, the result discarded. -/
def execCmp (r : RegAddr) (s : State) : Result :=
  .next (s.incPc.setFlags (flagsSub (s.incPc.readReg r) s.incPc.acc).2)

/-- R102: logical right shift by 0 to 7. -/
def execBsr (n : ShiftCount) (s : State) : Result :=
  .next (s.incPc.setAccFlags (flagsLogic (s.incPc.acc >>> n.toNat)))

/-- R103: left shift by 0 to 7, bits above 7 lost. -/
def execBsl (n : ShiftCount) (s : State) : Result :=
  .next (s.incPc.setAccFlags (flagsLogic (s.incPc.acc <<< n.toNat)))

/-- R104: `acc <- flags_add(acc, 1)`; the operand bits are ignored (D11; log 11). -/
def execInc (_u : Ignored) (s : State) : Result :=
  .next (s.incPc.setAccFlags (flagsAdd s.incPc.acc 1))

end Sys2Proof.Machine
end

