-- ==== Sys2Proof/Machine/Control.lean ====
section
/-! DEFINITION. NOP, control transfer and halt (43_control.md). The state given to a meaning is that at
the start of the step; every meaning advances first (40_fetch_dispatch.md R77). -/

namespace Sys2Proof.Machine

/-- R113: the advance is its only effect; the operand bits are ignored (D11; log 11). -/
def execNop (_u : Ignored) (s : State) : Result := .next s.incPc

/-- R114: if the condition holds, `page <- imm >> 3`. -/
def execIcs (c : CondCode) (s : State) : Result :=
  .next (s.incPc.conditional c (encodeWord (.ics c)) s.ea fun imm =>
    s.incPc.setPage (pageOfImm imm))

/-- R115: `pc <- x[op] & 0b11111`; the page is that after the advance. -/
def execJid (r : RegAddr) (s : State) : Result :=
  .next (s.incPc.setPc (offsetOfReg (s.incPc.readReg r)))

/-- R116: if the condition holds, `pc <- (imm & 0b11111) >> 3`. -/
def execBrc (c : CondCode) (s : State) : Result :=
  .next (s.incPc.conditional c (encodeWord (.brc c)) s.ea fun imm =>
    s.incPc.setPc (offsetOfImm imm))

/-- R117: `halted <- true`; the operand bits are ignored (D11; log 11). -/
def execHlt (_u : Ignored) (s : State) : Result := .next s.incPc.halt

end Sys2Proof.Machine
end

