-- ==== Sys2Proof/Machine/Illegal.lean ====
section
/-! DEFINITION. The five illegal opcodes (30_encoding.md R66). After the advance their dispatch raises
`IllegalOpcode` with the raw word and the fetch address (40_fetch_dispatch.md R83, 60_exceptions.md
R121; logs 1, 2, 16). -/

namespace Sys2Proof.Machine

/-- `raise IllegalOpcode` for the word of `i`, in a step that starts in `s` (R121). -/
def raiseIllegal (i : Instr) (s : State) : Result :=
  .next (s.incPc.raise (.illegalOpcode (encodeWord i) s.ea))

/-- Opcode 26 (R121). -/
def execIllegal26 (u : Ignored) (s : State) : Result := raiseIllegal (.illegal26 u) s

/-- Opcode 27 (R121). -/
def execIllegal27 (u : Ignored) (s : State) : Result := raiseIllegal (.illegal27 u) s

/-- Opcode 28 (R121). -/
def execIllegal28 (u : Ignored) (s : State) : Result := raiseIllegal (.illegal28 u) s

/-- Opcode 29 (R121). -/
def execIllegal29 (u : Ignored) (s : State) : Result := raiseIllegal (.illegal29 u) s

/-- Opcode 30 (R121). -/
def execIllegal30 (u : Ignored) (s : State) : Result := raiseIllegal (.illegal30 u) s

end Sys2Proof.Machine
end

