-- ==== Sys2Proof/Machine/Transfer.lean ====
section
/-! DEFINITION. Load-immediate, register, memory and port transfers (42_data_movement.md). None of them
changes a flag. The state given to a meaning is that at the start of the step. -/

namespace Sys2Proof.Machine

/-- R105: fetch the immediate at the post-advance address, write it, advance past it. -/
def execLdi (r : RegAddr) (s : State) : Result :=
  .next (s.incPc.orRaise (s.incPc.fetchImm (encodeWord (.ldi r)) s.ea) fun imm =>
    (s.incPc.writeReg r imm).incPc)

/-- R106: `acc <- x[op]`. -/
def execRld (r : RegAddr) (s : State) : Result :=
  .next (s.incPc.setAcc (s.incPc.readReg r))

/-- R107: `x[op] <- acc`. -/
def execRst (r : RegAddr) (s : State) : Result :=
  .next (s.incPc.writeReg r s.incPc.acc)

/-- R108: `MemWrite(op, 1, acc)`. -/
def execMst (a : RamAddr) (s : State) : Result :=
  .next (s.incPc.memWrite a s.incPc.acc)

/-- R109: `acc <- MemRead(op, 1)`. -/
def execMld (a : RamAddr) (s : State) : Result :=
  .next (s.incPc.setAcc (s.incPc.memRead a))

/-- R110: `PortWrite(op, acc)`. -/
def execPst (p : PortNum) (s : State) : Result :=
  .next (s.incPc.portWrite p s.incPc.acc)

/-- R111: `acc <- PortRead(op)`. -/
def execPld (p : PortNum) (s : State) : Result :=
  .next (s.incPc.setAcc (s.incPc.portRead p))

end Sys2Proof.Machine
end

