-- ==== Sys2Proof/Machine/Dispatch.lean ====
section
/-! DEFINITION. The dispatch (40_fetch_dispatch.md R83): one arm for each row of the opcode table. -/

namespace Sys2Proof.Machine

/-- Execute one instruction word in the state at the start of its step (R72, R83). -/
def exec (i : Instr) (s : State) : Host.Outcome State Fault Refusal :=
  match i with
  | .nop u => Sys2Proof.Machine.execNop u s
  | .add r => Sys2Proof.Machine.execAdd r s
  | .sub r => Sys2Proof.Machine.execSub r s
  | .bsub r => Sys2Proof.Machine.execBsub r s
  | .or r => Sys2Proof.Machine.execOr r s
  | .nor r => Sys2Proof.Machine.execNor r s
  | .and r => Sys2Proof.Machine.execAnd r s
  | .nand r => Sys2Proof.Machine.execNand r s
  | .xor r => Sys2Proof.Machine.execXor r s
  | .xnor r => Sys2Proof.Machine.execXnor r s
  | .ldi r => Sys2Proof.Machine.execLdi r s
  | .adr r => Sys2Proof.Machine.execAdr r s
  | .rld r => Sys2Proof.Machine.execRld r s
  | .rst r => Sys2Proof.Machine.execRst r s
  | .mst a => Sys2Proof.Machine.execMst a s
  | .mld a => Sys2Proof.Machine.execMld a s
  | .ics c => Sys2Proof.Machine.execIcs c s
  | .jid r => Sys2Proof.Machine.execJid r s
  | .brc c => Sys2Proof.Machine.execBrc c s
  | .dec u => Sys2Proof.Machine.execDec u s
  | .cmp r => Sys2Proof.Machine.execCmp r s
  | .bsr n => Sys2Proof.Machine.execBsr n s
  | .bsl n => Sys2Proof.Machine.execBsl n s
  | .pst p => Sys2Proof.Machine.execPst p s
  | .pld p => Sys2Proof.Machine.execPld p s
  | .inc u => Sys2Proof.Machine.execInc u s
  | .illegal26 u => Sys2Proof.Machine.execIllegal26 u s
  | .illegal27 u => Sys2Proof.Machine.execIllegal27 u s
  | .illegal28 u => Sys2Proof.Machine.execIllegal28 u s
  | .illegal29 u => Sys2Proof.Machine.execIllegal29 u s
  | .illegal30 u => Sys2Proof.Machine.execIllegal30 u s
  | .hlt u => Sys2Proof.Machine.execHlt u s

end Sys2Proof.Machine
end

