-- ==== Sys2Proof/Machine/Step.lean ====
section
/-! DEFINITION. One step (40_fetch_dispatch.md R72, R73), and how a word is put where the next step
fetches it. -/

namespace Sys2Proof.Machine

/-- `step()` (R72): fetch, split the word, dispatch; the advance stands in each meaning. A halted or
faulted core has no step (R73; log 4). -/
def step (s : State) : Host.Outcome State Fault Refusal :=
  if s.halted then .fault .halted
  else if s.fault.isSome then .fault .faulted
  else
    match s.fetch with
    | .error f => .next (s.raise f)
    | .ok w => exec (decodeWord w) s

/-- `s` with a two-byte layout of `w` in ROM where the next step fetches its word and that word's
immediate; the word is stored last, so it stands where the two addresses are one (`pc = 32`). It stands
for the load of a program (70_reset_and_hazards.md R142; log 22). -/
def State.withFetchWord (s : State) (nbits w : Nat) : State :=
  let bytes := tableBytes nbits w
  (s.placeRom s.incPc.ea (bytes.getD 1 0)).placeRom s.ea (bytes.getD 0 0)

end Sys2Proof.Machine
end

