-- ==== Sys2Proof/Machine/Assembly.lean ====
section
/-! DEFINITION. The spec's own notations: the assembly spelling of 30_encoding.md R69 (D20: it "has no
semantics") and the idioms of R70. Nothing of the machine depends on this file. -/

namespace Sys2Proof.Machine

/-- The digits of an operand. -/
def operandText (o : Operand) : String :=
  match o.toNat with
  | 0 => "0" | 1 => "1" | 2 => "2" | 3 => "3" | 4 => "4" | 5 => "5" | 6 => "6" | _ => "7"

/-- A register operand, `rN` (R69). -/
def regText (r : RegAddr) : String := "r" ++ operandText r

/-- A condition name (R69); code 0 has none, and its instruction is spelled as a raw byte. -/
def condText (c : CondCode) : String :=
  match c.toNat with
  | 1 => "Z" | 2 => "NZ" | 3 => "M" | 4 => "NM" | 5 => "C" | 6 => "NC" | 7 => "AL" | _ => ""

/-- One hexadecimal digit. -/
def hexDigit (n : Nat) : String :=
  match n with
  | 0 => "0" | 1 => "1" | 2 => "2" | 3 => "3" | 4 => "4" | 5 => "5" | 6 => "6" | 7 => "7"
  | 8 => "8" | 9 => "9" | 10 => "A" | 11 => "B" | 12 => "C" | 13 => "D" | 14 => "E" | _ => "F"

/-- A byte as `0x` and two hexadecimal digits, one of the three forms R69 allows (log 21). -/
def hexText (v : Byte) : String := "0x" ++ hexDigit (v.toNat / 16) ++ hexDigit (v.toNat % 16)

/-- `.byte v` (R69). -/
def byteText (v : Byte) : String := ".byte " ++ hexText v

/-- The immediate of a laid out instruction as text. -/
def immText (imm : Option Byte) : String :=
  match imm with
  | some v => hexText v
  | none => ""

/-- The assembly spelling of a laid out instruction (R69). A word with no spelling of its own (an illegal
opcode, condition 0, a non-zero ignored operand) is spelled as a raw byte.
DESIGN CHOICE (log 21): R69 gives no form for a laid out two-byte ICS or BRC with condition 0; it is
spelled as its word alone, one `.byte`, and its immediate byte, which no step reads with that word
(60_exceptions.md R122), is not spelled. -/
def asmText (c : ImageInstr) : String :=
  let plain (m : String) (u : Ignored) : String := if u = 0 then m else byteText (encodeWord c.instr)
  let cond (m : String) (k : CondCode) : String :=
    if k = 0 then byteText (encodeWord c.instr) else m ++ condText k ++ ", " ++ immText c.imm
  match c.instr with
  | .nop u => plain "NOP" u
  | .dec u => plain "DEC" u
  | .inc u => plain "INC" u
  | .hlt u => plain "HLT" u
  | .add r => "ADD " ++ regText r
  | .sub r => "SUB " ++ regText r
  | .bsub r => "BSUB " ++ regText r
  | .or r => "OR " ++ regText r
  | .nor r => "NOR " ++ regText r
  | .and r => "AND " ++ regText r
  | .nand r => "NAND " ++ regText r
  | .xor r => "XOR " ++ regText r
  | .xnor r => "XNOR " ++ regText r
  | .ldi r => "LDI " ++ regText r ++ ", " ++ immText c.imm
  | .adr r => "ADR " ++ regText r
  | .rld r => "RLD " ++ regText r
  | .rst r => "RST " ++ regText r
  | .jid r => "JID " ++ regText r
  | .cmp r => "CMP " ++ regText r
  | .mst a => "MST " ++ operandText a
  | .mld a => "MLD " ++ operandText a
  | .pst p => "PST " ++ operandText p
  | .pld p => "PLD " ++ operandText p
  | .bsr n => "BSR " ++ operandText n
  | .bsl n => "BSL " ++ operandText n
  | .ics k => cond "ICS " k
  | .brc k => cond "BRC " k
  | .illegal26 _ | .illegal27 _ | .illegal28 _ | .illegal29 _ | .illegal30 _ =>
    byteText (encodeWord c.instr)

/-- Idiom "clear acc": `RLD r0` (R70). -/
def idiomClearAcc : Instr := .rld 0
/-- Idiom "test acc": `ADD r0` (R70). -/
def idiomTestAcc : Instr := .add 0
/-- Idiom "jump to offset in rN": `JID rN` (R70). -/
def idiomJump (r : RegAddr) : Instr := .jid r
/-- Idiom "unconditional page switch": `ICS AL, imm` (R70). -/
def idiomPageSwitch (imm : Byte) : ImageInstr := ⟨.ics 7, some imm⟩

end Sys2Proof.Machine
end

