-- ==== Sys2Proof/Machine/Boundary.lean ====
section
/-! DEFINITION. The host's operations at the core's boundary (70_reset_and_hazards.md): `load`, `flush`,
and the text format of an image. None is an instruction. -/

namespace Sys2Proof.Machine

/-! ### Program load -/

/-- What `load` writes (R142): the image at ROM address 0 upwards, and nothing else. -/
def State.withImage (s : State) (image : List Byte) : State :=
  { s with rom := s.rom.writeBytes 0 image }

/-- One core in its host's hands: the lifecycle of R143 and R149. It is no state of the core, whose tuple
is exactly `State` (10_state.md R14); it says whether `load` may still be called. -/
inductive Session where
  /-- The core has been constructed (R141), and neither loaded nor stepped. -/
  | constructed
  /-- The core has been loaded, or has taken its first step. -/
  | started (core : State)
  deriving DecidableEq, Repr

/-- The core of a session. -/
def Session.core : Session → State
  | .constructed => State.reset
  | .started s => s

/-- `load(image)` (R142, R143): after reset and before the first step, once; a second load, a load of a
stepped core and an image longer than ROM are refused (`none`: the spec has no run with one).
UNVERIFIED (D14, D15; log 14): the source says "rejected or truncated", and nothing of a second load. -/
def Session.load : Session → List Byte → Option Session
  | .constructed, image =>
    if image.length ≤ Config.romSize then some (.started (State.reset.withImage image)) else none
  | .started _, _ => none

/-- Boot (R144): reset, then the one load. -/
def boot (image : List Byte) : Option State := (Session.constructed.load image).map Session.core

/-! ### Console -/

/-- `flush()` (60_exceptions.md R136): the buffered bytes in FIFO order, and the state with the buffer
emptied and nothing else changed. -/
def State.flush (s : State) : List Byte × State := (s.console, { s with console := [] })

/-- The character of one decimal digit. -/
def digitChar (n : Nat) : Char := Char.ofNat (48 + n % 10)

/-- A byte as decimal digits without leading zeros, `0` for zero, and a line end (R136, D21).
DESIGN CHOICE: the line end is the one character line feed (log 19). -/
def spell (v : Byte) : List Char :=
  let n := v.toNat
  (if n < 10 then [digitChar n]
   else if n < 100 then [digitChar (n / 10), digitChar n]
   else [digitChar (n / 100), digitChar (n / 10), digitChar n]) ++ ['\n']

/-- What the console shows of a sequence of flushed bytes: one line each. -/
def spellAll (vs : List Byte) : List Char := vs.flatMap spell

/-! ### Image text (R145, R146) -/

/-- The characters between tokens (log 18). -/
def isSpace (c : Char) : Bool := c == ' ' || c == '\t' || c == '\n' || c == '\r'

/-- Cut a text at the characters that satisfy `p`, which are dropped. -/
def splitAtChars (p : Char → Bool) : List Char → List (List Char)
  | [] => [[]]
  | c :: cs =>
    match splitAtChars p cs with
    | [] => [[c]]
    | t :: ts => if p c then [] :: t :: ts else (c :: t) :: ts

/-- The value of a string of `0` and `1` read after digits of value `n`; any other string has none. -/
def digitsValue (n : Nat) : List Char → Option Nat
  | [] => some n
  | c :: cs =>
    if c = '0' then digitsValue (2 * n) cs
    else if c = '1' then digitsValue (2 * n + 1) cs
    else none

/-- The value of a token that is a base-2 literal: a non-empty string of `0` and `1` of value at most
255, with any leading zeros; any other token has none (R146, D23; log 18). -/
def tokenValue (token : List Char) : Option Nat :=
  match token with
  | [] => none
  | _ :: _ => (digitsValue 0 token).filter (· ≤ 255)

/-- The bytes of one line: none if its first character is `/`, else those of its tokens that parse, in
order (R145, R146). -/
def lineBytes (line : List Char) : List Byte :=
  match line with
  | '/' :: _ => []
  | _ => (splitAtChars isSpace line).filterMap fun t => (tokenValue t).map (BitVec.ofNat 8)

/-- The image of a source text (R145, R146). -/
def imageOfText (text : List Char) : List Byte :=
  (splitAtChars (· == '\n') text).flatMap lineBytes

end Sys2Proof.Machine
end

