-- ==== Sys2Proof/Machine/Driver.lean ====
section
/-! DEFINITION. The host's calls on one core (70_reset_and_hazards.md R149), and the reference driver at
the core's interface (R147, R148): step, flush after every instruction, until `halted`. Its real-time
wait is no part of the core's contract and is left out (log 20). -/

namespace Sys2Proof.Machine

/-- At most `n` steps from `s`, stopping where no step exists; nothing is flushed. -/
def runSteps : Nat → State → State
  | 0, s => s
  | n + 1, s =>
    match step s with
    | .next t => runSteps n t
    | .fault _ => s
    | .refused _ => s

/-- The driver for at most `n` rounds (R147): the bytes it emits, in order, and the state it leaves. -/
def drive : Nat → State → List Byte × State
  | 0, s => ([], s)
  | n + 1, s =>
    match step s with
    | .next t =>
      let rest := drive n t.flush.2
      (t.flush.1 ++ rest.1, rest.2)
    | .fault _ => ([], s)
    | .refused _ => ([], s)

/-! ### The host's calls -/

/-- The calls of R149 that change anything. Its other two, `is_halted()` and the read of the fault record,
are the fields `halted` and `fault` of `Session.core`. -/
inductive HostCall where
  | load (image : List Byte)
  | step
  | flush
  deriving DecidableEq, Repr

/-- `step()` as the host may call it (R149): `none` where no step exists. -/
def Session.step (x : Session) : Option Session :=
  match Machine.step x.core with
  | .next t => some (.started t)
  | .fault _ => none
  | .refused _ => none

/-- `flush()` between steps (R149): the bytes handed over, and the session after. A core that has been
neither loaded nor stepped has an empty buffer. -/
def Session.flush : Session → List Byte × Session
  | .constructed => ([], .constructed)
  | .started s => (s.flush.1, .started s.flush.2)

/-- One call; `none` where the spec admits none (R143, R149; log 14). -/
def Session.call (x : Session) : HostCall → Option Session
  | .load image => x.load image
  | .step => x.step
  | .flush => some x.flush.2

/-- A sequence of calls; `none` if one of them is not admitted. -/
def Session.calls (x : Session) : List HostCall → Option Session
  | [] => some x
  | c :: cs =>
    match x.call c with
    | some y => y.calls cs
    | none => none

end Sys2Proof.Machine
end

