-- ==== Sys2Proof/Safety.lean ====
section
/-! DEFINITION. What a run is and how it ends (60_exceptions.md R132), the labels of the fatal conditions
(R125), and the invariants of reachable states. -/

namespace Sys2Proof.Machine

/-- A step may be taken (40_fetch_dispatch.md R73). -/
def State.Live (s : State) : Prop := s.halted = false ∧ s.fault = none

/-- How a run stands (R132). -/
inductive RunEnd where
  /-- HLT has executed and there is no fault record. -/
  | normal
  /-- There is a fault record. -/
  | abnormal
  /-- Neither: a step follows. -/
  | running
  deriving DecidableEq, Repr

/-- R132: a faulted state "is never a normal end" (R73). -/
def State.runEnd (s : State) : RunEnd :=
  if s.fault.isSome then .abnormal else if s.halted then .normal else .running

/-- A run of at most `n` steps is safe when it meets no fatal condition (R120, R132). -/
def SafeRun (n : Nat) (s : State) : Prop := (runSteps n s).fault = none

/-- The spec's numbering of the kinds (R125, D22): labels, read by no rule. -/
def FaultRecord.code : FaultRecord → Nat
  | .illegalOpcode _ _ => 1
  | .illegalCondition _ _ _ => 2
  | .fetchOutOfRange _ => 3
  | .immediateOutOfRange _ _ _ => 4

/-- The program counter and the page stay where the spec says they do: `pc <= 32` (10_state.md R27), and
a page past the ROM is 32, at which the fetch faults (R30). -/
def State.AddressInv (s : State) : Prop := s.pc.toNat ≤ 32 ∧ s.page.toNat ≤ 32

/-- ROM and RAM keep their canonical form, within their sizes (20_memory.md R37, R41; log 17). -/
def State.MemoryInv (s : State) : Prop :=
  s.rom.wf Config.romSize ∧ s.ram.wf Config.ramSize

/-- RAM bytes 8 to 31 hold 0 (20_memory.md R41). -/
def State.HighRamInv (s : State) : Prop := ∀ a, 8 ≤ a → s.ram.read a = 0

/-- A halted state holds no fault record, so that the ends of a run exclude each other (R132). -/
def State.EndInv (s : State) : Prop := s.halted = true → s.fault = none

end Sys2Proof.Machine
end

