-- ==== Sys2Proof/Certificates/Slice0/Obligations.lean ====
section
/-! DEFINITION. The statements for the provers, in the order of the spec's files, and the vocabulary they
are written in. A docstring names the rules a statement formalises; where a clause rests on a point the
spec marks as its own decision or inference, it names that decision and the log entry. -/

namespace Sys2Proof.Claims

open Sys2Proof.Machine

/-! ### Frames -/

/-- Every register reads as before. -/
def RegsKept (s t : State) : Prop := ∀ r : RegAddr, t.readReg r = s.readReg r

/-- Every register but `d` reads as before. -/
def RegsKeptBut (d : RegAddr) (s t : State) : Prop := ∀ r : RegAddr, r ≠ d → t.readReg r = s.readReg r

/-- Every byte of RAM reads as before. -/
def RamKept (s t : State) : Prop := ∀ a : Nat, t.ram.read a = s.ram.read a

/-- Every byte of ROM reads as before. -/
def RomKept (s t : State) : Prop := ∀ a : Nat, t.rom.read a = s.rom.read a

/-- The run goes on as before: neither the halted flag nor the fault record changes. -/
def RunKept (s t : State) : Prop := t.halted = s.halted ∧ t.fault = s.fault

/-- `(pc, page)` after the one advance of the step (R77, R84). -/
def AdvancedOnce (s t : State) : Prop := t.pc = nextPc s.pc ∧ t.page = nextPage s.pc s.page

/-- `(pc, page)` after two advances (R84). -/
def AdvancedTwice (s t : State) : Prop :=
  t.pc = nextPc (nextPc s.pc) ∧ t.page = nextPage (nextPc s.pc) (nextPage s.pc s.page)

/-- The frame of an instruction that writes at most the accumulator and the flags. -/
def AccFrame (s t : State) : Prop :=
  RegsKept s t ∧ RamKept s t ∧ RomKept s t ∧ t.console = s.console ∧ RunKept s t ∧ AdvancedOnce s t

/-- The frame of an instruction that writes at most register `d` and the flags. -/
def RegFrame (d : RegAddr) (s t : State) : Prop :=
  RegsKeptBut d s t ∧ t.acc = s.acc ∧ RamKept s t ∧ RomKept s t ∧ t.console = s.console ∧ RunKept s t

/-- The frame of a control transfer: everything but `pc` and `page`. -/
def ControlFrame (s t : State) : Prop :=
  RegsKept s t ∧ t.acc = s.acc ∧ t.flags = s.flags ∧ RamKept s t ∧ RomKept s t ∧
    t.console = s.console ∧ RunKept s t

/-- What a raise leaves as it was, whatever it does to `pc` and `page` (60_exceptions.md R129). -/
def FaultFrame (s t : State) : Prop :=
  RegsKept s t ∧ t.acc = s.acc ∧ t.flags = s.flags ∧ t.halted = s.halted ∧ RamKept s t ∧ RomKept s t ∧
    t.console = s.console

/-- The three flags are exactly these truths. -/
def FlagsAre (f : Flags) (zero msb carry : Prop) : Prop :=
  (f.zero = true ↔ zero) ∧ (f.msb = true ↔ msb) ∧ (f.carry = true ↔ carry)

/-- Zero and sign are those of the stored byte `r` (R86, R87, R88). -/
def FlagsOf (f : Flags) (r : Byte) (carry : Prop) : Prop :=
  FlagsAre f (r.toNat = 0) (128 ≤ r.toNat) carry

/-- Format `B` with the word `base + op` (30_encoding.md R59, R65). -/
def OneByte (i : Instr) (base : Nat) (op : Operand) : Prop :=
  i.format = .b ∧ (encodeWord i).toNat = base + op.toNat

/-- Format `BI` with the word `base + op` (R60, R65). -/
def TwoBytes (i : Instr) (base : Nat) (op : Operand) : Prop :=
  i.format = .bi ∧ (encodeWord i).toNat = base + op.toNat

/-- A bitwise or shift instruction: the accumulator becomes `r`, the flags are of `r`, carry cleared. -/
def LogicResult (i : Instr) (s : State) (r : Byte) : Prop :=
  ∃ t, exec i s = .next t ∧ t.acc = r ∧ FlagsOf t.flags r False ∧ AccFrame s t

/-! ### Who writes and reads what (10_state.md R18, R21, R24) -/

/-- The instructions whose row of R24 defines the flags. -/
def writesFlags : Instr → Bool
  | .add _ | .adr _ | .inc _ | .sub _ | .bsub _ | .cmp _ | .dec _ => true
  | .or _ | .nor _ | .and _ | .nand _ | .xor _ | .xnor _ | .bsr _ | .bsl _ => true
  | .nop _ | .ldi _ | .rld _ | .rst _ | .mst _ | .mld _ | .ics _ | .jid _ | .brc _ => false
  | .pst _ | .pld _ | .hlt _ => false
  | .illegal26 _ | .illegal27 _ | .illegal28 _ | .illegal29 _ | .illegal30 _ => false

/-- The instructions that evaluate a condition (R25). -/
def readsFlags : Instr → Bool
  | .ics _ | .brc _ => true
  | .add _ | .adr _ | .inc _ | .sub _ | .bsub _ | .cmp _ | .dec _ => false
  | .or _ | .nor _ | .and _ | .nand _ | .xor _ | .xnor _ | .bsr _ | .bsl _ => false
  | .nop _ | .ldi _ | .rld _ | .rst _ | .mst _ | .mld _ | .jid _ | .pst _ | .pld _ | .hlt _ => false
  | .illegal26 _ | .illegal27 _ | .illegal28 _ | .illegal29 _ | .illegal30 _ => false

/-- The instructions that write the accumulator (R21). -/
def writesAcc : Instr → Bool
  | .add _ | .sub _ | .bsub _ | .or _ | .nor _ | .and _ | .nand _ | .xor _ | .xnor _ => true
  | .rld _ | .mld _ | .dec _ | .bsr _ | .bsl _ | .pld _ | .inc _ => true
  | .adr _ | .rst _ | .mst _ | .cmp _ | .pst _ => false
  | .ldi _ | .ics _ | .jid _ | .brc _ | .nop _ | .hlt _ => false
  | .illegal26 _ | .illegal27 _ | .illegal28 _ | .illegal29 _ | .illegal30 _ => false

/-- The instructions that neither read nor write the accumulator (R21). -/
def ignoresAcc : Instr → Bool
  | .ldi _ | .ics _ | .jid _ | .brc _ | .nop _ | .hlt _ => true
  | .illegal26 _ | .illegal27 _ | .illegal28 _ | .illegal29 _ | .illegal30 _ => true
  | .add _ | .sub _ | .bsub _ | .or _ | .nor _ | .and _ | .nand _ | .xor _ | .xnor _ => false
  | .rld _ | .mld _ | .dec _ | .bsr _ | .bsl _ | .pld _ | .inc _ => false
  | .adr _ | .rst _ | .mst _ | .cmp _ | .pst _ => false

/-- The instructions that write the register file (R18). -/
def writesRegs : Instr → Bool
  | .ldi _ | .adr _ | .rst _ => true
  | .add _ | .sub _ | .bsub _ | .or _ | .nor _ | .and _ | .nand _ | .xor _ | .xnor _ => false
  | .rld _ | .jid _ | .cmp _ | .nop _ | .mst _ | .mld _ | .ics _ | .brc _ | .dec _ => false
  | .bsr _ | .bsl _ | .pst _ | .pld _ | .inc _ | .hlt _ => false
  | .illegal26 _ | .illegal27 _ | .illegal28 _ | .illegal29 _ | .illegal30 _ => false

/-- The instructions that read the register file (R18). -/
def readsRegs : Instr → Bool
  | .add _ | .sub _ | .bsub _ | .or _ | .nor _ | .and _ | .nand _ | .xor _ | .xnor _ => true
  | .adr _ | .rld _ | .jid _ | .cmp _ => true
  | .ldi _ | .rst _ | .nop _ | .mst _ | .mld _ | .ics _ | .brc _ | .dec _ => false
  | .bsr _ | .bsl _ | .pst _ | .pld _ | .inc _ | .hlt _ => false
  | .illegal26 _ | .illegal27 _ | .illegal28 _ | .illegal29 _ | .illegal30 _ => false

/-- The word the next step would execute, if its address is in ROM. -/
def wordAt (s : State) : Option Byte := if s.ea < 1024 then some (s.rom.read s.ea) else none

/-- What a step adds to the console: the accumulator, exactly when the word is `PST 7`, 0xBF. -/
def consoleOutput (s : State) : List Byte := if wordAt s = some 0xBF then [s.acc] else []

/-- The step from `s` raises `IllegalOpcode` with the raw word `w` and the fetch address, and nothing runs
after it. -/
def FatalOpcode (w : Byte) (s : State) : Prop :=
  ∃ t, step s = .next t ∧ t.fault = some (.illegalOpcode w s.ea) ∧ FaultFrame s t ∧
    step t = .fault .faulted

/-- `exec i` raises `IllegalOpcode` with the raw word and the fetch address. -/
def RaisesIllegalOpcode (i : Instr) (s : State) : Prop :=
  ∃ t, exec i s = .next t ∧ t.fault = some (.illegalOpcode (encodeWord i) s.ea) ∧ FaultFrame s t

/-! ### Image text (70_reset_and_hazards.md R145, R146) -/

/-- The characters the model takes for white space (log 18). -/
def IsBlank (c : Char) : Prop := c = ' ' ∨ c = '\t' ∨ c = '\n' ∨ c = '\r'

/-- No blank in a token. -/
def BlankFree (t : List Char) : Prop := ∀ c ∈ t, ¬ IsBlank c

/-- The value of a string of `0` and `1` in base 2, its first character the most significant. -/
def binaryValue (t : List Char) : Nat := t.foldl (fun n c => 2 * n + if c = '1' then 1 else 0) 0

/-- The value of a base-2 literal of 0 to 255 as R146 reads it (D23); no other token has one. -/
def literalValue (t : List Char) : Option Nat :=
  if t ≠ [] ∧ (∀ c ∈ t, c = '0' ∨ c = '1') ∧ binaryValue t ≤ 255 then some (binaryValue t) else none

/-- The bytes of the tokens that are literals, in order. -/
def bytesOfTokens (ts : List (List Char)) : List Byte := (ts.filterMap literalValue).map (BitVec.ofNat 8)

/-- A line of tokens: the first, then each further one behind the character that separates it. -/
def lineOfTokens (t : List Char) (more : List (Char × List Char)) : List Char :=
  t ++ more.flatMap fun p => p.1 :: p.2

end Sys2Proof.Claims

open Sys2Proof Sys2Proof.Machine Sys2Proof.Claims

/-! ### Reset, load, registers -/

/-- R36: after reset and the load of an image, every element has its table's value, and the first fetch is
from ROM address 0. -/
def Obligations.ResetAndLoadLeaveSpecValues : Prop :=
  boot [] = some State.reset ∧
  ∀ image : List Byte, image.length ≤ 1024 → ∃ s, boot image = some s ∧
    (∀ r, s.readReg r = 0) ∧ s.acc = 0 ∧ s.flags = ⟨false, false, false⟩ ∧ s.pc = 0 ∧ s.page = 0 ∧
    s.halted = false ∧ (∀ a, s.ram.read a = 0) ∧ (∀ a, s.rom.read a = (image[a]?).getD 0) ∧
    s.console = [] ∧ s.fault = none ∧ s.ea = 0

/-- R142, R143 with D14, D15 (log 14): what `load` writes lies from ROM address 0 upwards and nothing else
changes; a constructed core takes one image that fits. An image that does not fit is refused, and so is
every load of a core that has been loaded or stepped, in whatever state it is: the spec's decisions. That
the memories keep their canonical form is said of the model's own choice of data (log 17), of no rule. -/
def Obligations.LoadWritesRomOnlyOrRefuses : Prop :=
  (∀ (s : State) (image : List Byte), s.MemoryInv → image.length ≤ 1024 →
    (s.withImage image).MemoryInv ∧
    (∀ a, (s.withImage image).rom.read a =
      if a < image.length then (image[a]?).getD 0 else s.rom.read a) ∧
    s.withImage image = { s with rom := (s.withImage image).rom }) ∧
  (∀ image : List Byte,
    (image.length ≤ 1024 →
      Session.constructed.load image = some (.started (State.reset.withImage image))) ∧
    (1024 < image.length → Session.constructed.load image = none) ∧
    (∀ s : State, (Session.started s).load image = none))

/-- R16: address 0 reads 0 whatever was written; any other address reads what was last written to it. -/
def Obligations.RegisterReadsLastWriteButZero : Prop :=
  ∀ (s : State) (r q : RegAddr) (v : Byte),
    s.readReg 0 = 0 ∧ (s.writeReg 0 v).readReg 0 = 0 ∧
    (s.writeReg r v).readReg q = (if q = 0 then 0 else if q = r then v else s.readReg q)

/-- R17: RST, ADR and LDI to address 0 change no register; RST r0 and LDI r0 change nothing but `pc` and
`page`, and the flags of ADR r0 are still written. That they are those of `flags_add` of 0 and the
accumulator is R99's reading, the spec's decision D10 (log 10). -/
def Obligations.WritesToZeroRegisterAreDropped : Prop :=
  (∀ (s : State) (v : Byte), s.writeReg 0 v = s) ∧
  (∀ s : State, ∃ t, exec (.rst 0) s = .next t ∧ ControlFrame s t ∧ AdvancedOnce s t) ∧
  (∀ s : State, s.incPc.ea < 1024 →
    ∃ t, exec (.ldi 0) s = .next t ∧ ControlFrame s t ∧ AdvancedTwice s t) ∧
  (∀ s : State, ∃ t, exec (.adr 0) s = .next t ∧ RegsKept s t ∧ t.flags = (flagsAdd 0 s.acc).2 ∧
    RegFrame 0 s t)

/-! ### Addressing -/

/-- R78: the advance. `pc` is at most 32 in every reachable state (StepKeepsPcAndPageInRange). -/
def Obligations.AdvanceWrapsAfterThirtyTwo : Prop :=
  ∀ s : State, s.pc.toNat ≤ 32 →
    (s.pc.toNat = 32 → s.incPc.pc.toNat = 0 ∧ s.incPc.page.toNat = (s.page.toNat + 1) % 256) ∧
    (s.pc.toNat ≠ 32 → s.incPc.pc.toNat = s.pc.toNat + 1 ∧ s.incPc.page = s.page) ∧
    s.incPc = { s with pc := s.incPc.pc, page := s.incPc.page }

/-- R39, R40 (D3, D5; log 5): the effective address is the unmasked sum, and it leaves ROM exactly when
`page >= 32`, or `page = 31` and `pc = 32`. -/
def Obligations.AddressLeavesRomPastPage31 : Prop :=
  ∀ s : State, s.pc.toNat ≤ 32 →
    s.ea = s.page.toNat * 32 + s.pc.toNat ∧ s.ea ≤ 8192 ∧
    (1024 ≤ s.ea ↔ 32 ≤ s.page.toNat ∨ (s.page.toNat = 31 ∧ s.pc.toNat = 32))

/-- R80, R82 (the spec's inferences): with `pc = 32` the word fetched is the one the next page's offset 0
holds, and the immediate of that word is the word itself. -/
def Obligations.PageStartIsFetchedTwice : Prop :=
  ∀ s : State, s.pc = 32 → s.page.toNat < 255 →
    s.incPc.pc = 0 ∧ s.incPc.ea = s.ea ∧
    (∀ r : RegAddr, s.ea < 1024 → ∃ t, exec (.ldi r) s = .next t ∧
      (r ≠ 0 → t.readReg r = s.rom.read s.ea) ∧ t.pc = 1 ∧ t.page = s.page + 1)

/-! ### Flag helpers -/

/-- R86. -/
def Obligations.FlagsAddIsWrappedSum : Prop :=
  ∀ a b : Byte, (flagsAdd a b).1.toNat = (a.toNat + b.toNat) % 256 ∧
    FlagsOf (flagsAdd a b).2 (flagsAdd a b).1 (256 ≤ a.toNat + b.toNat) ∧
    ((flagsAdd a b).2.carry = true ↔ a.toNat + b.toNat ≠ (flagsAdd a b).1.toNat)

/-- R87: the wrapped difference, its borrow, and who uses it in the order of the result. -/
def Obligations.FlagsSubIsWrappedDifference : Prop :=
  (∀ a b : Byte, (flagsSub a b).1.toNat = (256 + a.toNat - b.toNat) % 256 ∧
    FlagsOf (flagsSub a b).2 (flagsSub a b).1 (a.toNat < b.toNat)) ∧
  (∀ (r : RegAddr) (s : State), ∃ t, exec (.bsub r) s = .next t ∧
    t.acc = (flagsSub (s.readReg r) s.acc).1 ∧ t.flags = (flagsSub (s.readReg r) s.acc).2) ∧
  (∀ (r : RegAddr) (s : State), ∃ t, exec (.cmp r) s = .next t ∧
    t.flags = (flagsSub (s.readReg r) s.acc).2) ∧
  (∀ (u : Ignored) (s : State), ∃ t, exec (.dec u) s = .next t ∧
    t.acc = (flagsSub s.acc 1).1 ∧ t.flags = (flagsSub s.acc 1).2) ∧
  (∃ (r : RegAddr) (s t : State), exec (.sub r) s = .next t ∧ t.flags ≠ (flagsSub s.acc (s.readReg r)).2)

/-- R88: the helper, and that every bitwise and shift instruction writes the flags of its result by it. -/
def Obligations.FlagsLogicClearsCarry : Prop :=
  (∀ r : Byte, (flagsLogic r).1 = r ∧ FlagsOf (flagsLogic r).2 r False) ∧
  (∀ (o : Operand) (s : State),
    ∀ i ∈ [Instr.or o, .nor o, .and o, .nand o, .xor o, .xnor o, .bsr o, .bsl o],
      ∃ t, exec i s = .next t ∧ t.flags = (flagsLogic t.acc).2)

/-! ### Arithmetic, logic, shifts -/

/-- R90. -/
def Obligations.AddStoresSumInAcc : Prop :=
  ∀ (r : RegAddr) (s : State), OneByte (.add r) 0x08 r ∧
    ∃ t, exec (.add r) s = .next t ∧
      t.acc.toNat = ((s.readReg r).toNat + s.acc.toNat) % 256 ∧
      FlagsOf t.flags t.acc (256 ≤ (s.readReg r).toNat + s.acc.toNat) ∧ AccFrame s t

/-- R91. The carry formula `x[op] < acc` is the spec's decision D9 (log 9). -/
def Obligations.SubStoresDifferenceWithReversedCarry : Prop :=
  ∀ (r : RegAddr) (s : State), OneByte (.sub r) 0x10 r ∧
    ∃ t, exec (.sub r) s = .next t ∧
      t.acc.toNat = (256 + s.acc.toNat - (s.readReg r).toNat) % 256 ∧
      FlagsOf t.flags t.acc ((s.readReg r).toNat < s.acc.toNat) ∧ AccFrame s t

/-- R92. -/
def Obligations.BsubStoresReversedDifference : Prop :=
  ∀ (r : RegAddr) (s : State), OneByte (.bsub r) 0x18 r ∧
    ∃ t, exec (.bsub r) s = .next t ∧
      t.acc.toNat = (256 + (s.readReg r).toNat - s.acc.toNat) % 256 ∧
      FlagsOf t.flags t.acc ((s.readReg r).toNat < s.acc.toNat) ∧ AccFrame s t

/-- R93 to R98: each result bit is the operation of the two operand bits. -/
def Obligations.BitwiseInstructionsActBitByBit : Prop :=
  ∀ (r : RegAddr) (s : State),
    (OneByte (.or r) 0x20 r ∧ ∃ v, LogicResult (.or r) s v ∧
      ∀ k < 8, v.getLsbD k = (s.acc.getLsbD k || (s.readReg r).getLsbD k)) ∧
    (OneByte (.nor r) 0x28 r ∧ ∃ v, LogicResult (.nor r) s v ∧
      ∀ k < 8, v.getLsbD k = !(s.acc.getLsbD k || (s.readReg r).getLsbD k)) ∧
    (OneByte (.and r) 0x30 r ∧ ∃ v, LogicResult (.and r) s v ∧
      ∀ k < 8, v.getLsbD k = (s.acc.getLsbD k && (s.readReg r).getLsbD k)) ∧
    (OneByte (.nand r) 0x38 r ∧ ∃ v, LogicResult (.nand r) s v ∧
      ∀ k < 8, v.getLsbD k = !(s.acc.getLsbD k && (s.readReg r).getLsbD k)) ∧
    (OneByte (.xor r) 0x40 r ∧ ∃ v, LogicResult (.xor r) s v ∧
      ∀ k < 8, v.getLsbD k = (s.acc.getLsbD k ^^ (s.readReg r).getLsbD k)) ∧
    (OneByte (.xnor r) 0x48 r ∧ ∃ v, LogicResult (.xnor r) s v ∧
      ∀ k < 8, v.getLsbD k = !(s.acc.getLsbD k ^^ (s.readReg r).getLsbD k))

/-- R99. That the flags of ADR r0 come from the computed sum is the spec's decision D10 (log 10). -/
def Obligations.AdrAddsAccToRegister : Prop :=
  ∀ (r : RegAddr) (s : State), OneByte (.adr r) 0x58 r ∧
    ∃ t v, exec (.adr r) s = .next t ∧
      v.toNat = ((s.readReg r).toNat + s.acc.toNat) % 256 ∧
      t.readReg r = (if r = 0 then 0 else v) ∧
      FlagsOf t.flags v (256 ≤ (s.readReg r).toNat + s.acc.toNat) ∧ RegFrame r s t ∧ AdvancedOnce s t

/-- R100, R104. That the operand bits are ignored is the spec's decision D11 (log 11). -/
def Obligations.DecAndIncStepAccByOne : Prop :=
  ∀ (u : Ignored) (s : State),
    (OneByte (.dec u) 0x98 u ∧ ∃ t, exec (.dec u) s = .next t ∧
      t.acc.toNat = (s.acc.toNat + 255) % 256 ∧ FlagsOf t.flags t.acc (s.acc.toNat = 0) ∧ AccFrame s t) ∧
    (OneByte (.inc u) 0xC8 u ∧ ∃ t, exec (.inc u) s = .next t ∧
      t.acc.toNat = (s.acc.toNat + 1) % 256 ∧ FlagsOf t.flags t.acc (s.acc.toNat = 255) ∧ AccFrame s t)

/-- R101. -/
def Obligations.CmpWritesFlagsOnly : Prop :=
  ∀ (r : RegAddr) (s : State), OneByte (.cmp r) 0xA0 r ∧
    ∃ t, exec (.cmp r) s = .next t ∧
      FlagsAre t.flags (s.readReg r = s.acc)
        (128 ≤ (256 + (s.readReg r).toNat - s.acc.toNat) % 256)
        ((s.readReg r).toNat < s.acc.toNat) ∧
      t.acc = s.acc ∧ AccFrame s t

/-- R102, R103. -/
def Obligations.ShiftsMoveZerosIn : Prop :=
  ∀ (n : ShiftCount) (s : State),
    (OneByte (.bsr n) 0xA8 n ∧ ∃ v, LogicResult (.bsr n) s v ∧ v.toNat = s.acc.toNat / 2 ^ n.toNat) ∧
    (OneByte (.bsl n) 0xB0 n ∧ ∃ v, LogicResult (.bsl n) s v ∧
      v.toNat = s.acc.toNat * 2 ^ n.toNat % 256)

/-! ### Data movement -/

/-- R105. The fault at an immediate beyond ROM is the spec's decision D6 (log 6). -/
def Obligations.LdiLoadsFetchedImmediate : Prop :=
  ∀ (r : RegAddr) (s : State), TwoBytes (.ldi r) 0x50 r ∧
    (s.incPc.ea < 1024 → ∃ t, exec (.ldi r) s = .next t ∧
      t.readReg r = (if r = 0 then 0 else s.rom.read s.incPc.ea) ∧
      t.flags = s.flags ∧ RegFrame r s t ∧ AdvancedTwice s t) ∧
    (1024 ≤ s.incPc.ea → ∃ t, exec (.ldi r) s = .next t ∧
      t.fault = some (.immediateOutOfRange s.incPc.ea (encodeWord (.ldi r)) s.ea) ∧ FaultFrame s t)

/-- R106, R107. -/
def Obligations.RldAndRstMoveBetweenAccAndRegister : Prop :=
  ∀ (r : RegAddr) (s : State),
    (OneByte (.rld r) 0x60 r ∧ ∃ t, exec (.rld r) s = .next t ∧
      t.acc = s.readReg r ∧ t.flags = s.flags ∧ AccFrame s t) ∧
    (OneByte (.rst r) 0x68 r ∧ ∃ t, exec (.rst r) s = .next t ∧
      t.readReg r = (if r = 0 then 0 else s.acc) ∧ t.flags = s.flags ∧ RegFrame r s t ∧ AdvancedOnce s t)

/-- R108. The premise, the canonical form of RAM, is the model's own choice of data (log 17) and an invariant
(StepKeepsMemoryCanonical). -/
def Obligations.MstStoresAccInRam : Prop :=
  ∀ (a : RamAddr) (s : State), s.MemoryInv → OneByte (.mst a) 0x70 a ∧
    ∃ t, exec (.mst a) s = .next t ∧
      t.ram.read (ramAddress a) = s.acc ∧
      (∀ b : Nat, b ≠ ramAddress a → t.ram.read b = s.ram.read b) ∧ ramAddress a < 8 ∧
      RegsKept s t ∧ t.acc = s.acc ∧ t.flags = s.flags ∧ RomKept s t ∧ t.console = s.console ∧
      RunKept s t ∧ AdvancedOnce s t

/-- R109. -/
def Obligations.MldLoadsAccFromRam : Prop :=
  ∀ (a : RamAddr) (s : State), OneByte (.mld a) 0x78 a ∧
    ∃ t, exec (.mld a) s = .next t ∧
      t.acc = s.ram.read a.toNat ∧ t.flags = s.flags ∧ AccFrame s t

/-- R110: port 7 appends, the other ports drop the byte. -/
def Obligations.PstAppendsToConsoleAtPortSeven : Prop :=
  ∀ (p : PortNum) (s : State), OneByte (.pst p) 0xB8 p ∧
    ∃ t, exec (.pst p) s = .next t ∧
      t.console = (if p.toNat = 7 then s.console ++ [s.acc] else s.console) ∧
      RegsKept s t ∧ t.acc = s.acc ∧ t.flags = s.flags ∧ RamKept s t ∧ RomKept s t ∧
      RunKept s t ∧ AdvancedOnce s t

/-- R111: every port reads 0, and no flag is written. -/
def Obligations.PldClearsAcc : Prop :=
  ∀ (p : PortNum) (s : State), OneByte (.pld p) 0xC0 p ∧
    ∃ t, exec (.pld p) s = .next t ∧ t.acc = 0 ∧ t.flags = s.flags ∧ AccFrame s t

/-! ### Control -/

/-- R112. That the condition is tested before the immediate is fetched is the spec's decision D19
(log 12). -/
def Obligations.ConditionTableIsTheSpecs : Prop :=
  (∀ (s : State) (w : Byte) (a : Nat),
    s.cond 0 w a = .error (.illegalCondition w a 0) ∧
    s.cond 1 w a = .ok s.flags.zero ∧ s.cond 2 w a = .ok (!s.flags.zero) ∧
    s.cond 3 w a = .ok s.flags.msb ∧ s.cond 4 w a = .ok (!s.flags.msb) ∧
    s.cond 5 w a = .ok s.flags.carry ∧ s.cond 6 w a = .ok (!s.flags.carry) ∧
    s.cond 7 w a = .ok true) ∧
  (∀ s : State, (∃ t, exec (.ics 0) s = .next t ∧ t.fault = some (.illegalCondition 0x80 s.ea 0)) ∧
    (∃ t, exec (.brc 0) s = .next t ∧ t.fault = some (.illegalCondition 0x90 s.ea 0)))

/-- R113. That the operand bits are ignored is the spec's decision D11 (log 11). -/
def Obligations.NopOnlyAdvances : Prop :=
  ∀ (u : Ignored) (s : State), OneByte (.nop u) 0x00 u ∧
    ∃ t, exec (.nop u) s = .next t ∧ ControlFrame s t ∧ AdvancedOnce s t

/-- R114, condition true. That the taken path does not advance past the immediate is the spec's decision
D8 (log 8), the fault beyond ROM D6 (log 6). -/
def Obligations.TakenIcsSwitchesPage : Prop :=
  ∀ (c : CondCode) (k : Cond) (s : State), condOf c = some k → condHolds k s.flags = true →
    TwoBytes (.ics c) 0x80 c ∧
    (s.incPc.ea < 1024 → ∃ t, exec (.ics c) s = .next t ∧
      t.page.toNat = (s.rom.read s.incPc.ea).toNat / 8 ∧ t.pc = nextPc s.pc ∧ ControlFrame s t) ∧
    (1024 ≤ s.incPc.ea → ∃ t, exec (.ics c) s = .next t ∧
      t.fault = some (.immediateOutOfRange s.incPc.ea (encodeWord (.ics c)) s.ea) ∧ FaultFrame s t)

/-- R116, condition true (D8, D6; logs 8, 6). -/
def Obligations.TakenBrcSetsPcFromTwoBits : Prop :=
  ∀ (c : CondCode) (k : Cond) (s : State), condOf c = some k → condHolds k s.flags = true →
    TwoBytes (.brc c) 0x90 c ∧
    (s.incPc.ea < 1024 → ∃ t, exec (.brc c) s = .next t ∧
      t.pc.toNat = (s.rom.read s.incPc.ea).toNat % 32 / 8 ∧ t.pc.toNat ≤ 3 ∧
      t.page = nextPage s.pc s.page ∧ ControlFrame s t) ∧
    (1024 ≤ s.incPc.ea → ∃ t, exec (.brc c) s = .next t ∧
      t.fault = some (.immediateOutOfRange s.incPc.ea (encodeWord (.brc c)) s.ea) ∧ FaultFrame s t)

/-- R114, R116, condition false: one more advance, wherever the immediate lies. That it is not read is the
spec's decision D7 (log 7). -/
def Obligations.UntakenIcsAndBrcSkipTheImmediate : Prop :=
  ∀ (c : CondCode) (k : Cond) (s : State), condOf c = some k → condHolds k s.flags = false →
    (∃ t, exec (.ics c) s = .next t ∧ AdvancedTwice s t ∧ ControlFrame s t) ∧
    (∃ t, exec (.brc c) s = .next t ∧ AdvancedTwice s t ∧ ControlFrame s t)

/-- R115. That the page is the one after the advance is the spec's inference from R77. -/
def Obligations.JidSetsPcFromRegister : Prop :=
  ∀ (r : RegAddr) (s : State), OneByte (.jid r) 0x88 r ∧
    ∃ t, exec (.jid r) s = .next t ∧
      t.pc.toNat = (s.readReg r).toNat % 32 ∧ t.page = nextPage s.pc s.page ∧ ControlFrame s t

/-- R117. That the operand bits are ignored is the spec's decision D11 (log 11). -/
def Obligations.HltSetsHaltedAfterAdvance : Prop :=
  ∀ (u : Ignored) (s : State), OneByte (.hlt u) 0xF8 u ∧
    ∃ t, exec (.hlt u) s = .next t ∧ t.halted = true ∧ t.fault = s.fault ∧ AdvancedOnce s t ∧
      RegsKept s t ∧ t.acc = s.acc ∧ t.flags = s.flags ∧ RamKept s t ∧ RomKept s t ∧
      t.console = s.console

/-! ### Faults -/

/-- R121: the record of each illegal opcode. That a fault is a record in the state and that it names the
pre-advance address are the spec's decisions D12 and D22 (logs 1, 2). -/
def Obligations.IllegalOpcodesRecordWordAndAddress : Prop :=
  ∀ (u : Ignored) (s : State),
    (OneByte (.illegal26 u) 0xD0 u ∧ RaisesIllegalOpcode (.illegal26 u) s) ∧
    (OneByte (.illegal27 u) 0xD8 u ∧ RaisesIllegalOpcode (.illegal27 u) s) ∧
    (OneByte (.illegal28 u) 0xE0 u ∧ RaisesIllegalOpcode (.illegal28 u) s) ∧
    (OneByte (.illegal29 u) 0xE8 u ∧ RaisesIllegalOpcode (.illegal29 u) s) ∧
    (OneByte (.illegal30 u) 0xF0 u ∧ RaisesIllegalOpcode (.illegal30 u) s)

/-- R66: a step that fetches any of the 40 bytes 0xD0 to 0xF7 raises `IllegalOpcode` with the raw word and
the effective address, and no step follows. That the address is the one before the advance is the spec's
decision D12 (log 2). -/
def Obligations.IllegalBytesEndTheRun : Prop :=
  ∀ (s : State) (w : Byte), s.Live → wordAt s = some w → 0xD0 ≤ w.toNat → w.toNat ≤ 0xF7 →
    FatalOpcode w s

/-- R67: 0x80 and 0x90 decode to ICS and BRC with operand 0 and raise `IllegalCondition` in every state;
no other instruction with a legal opcode raises anything of its own word. That the condition is raised
also where the immediate's address is out of ROM is the spec's decision D19 (log 12); the record in the
state, with its word, is R122's, the spec's decisions D12 and D22 (log 1). -/
def Obligations.OnlyConditionZeroIsAFatalOperand : Prop :=
  decodeWord 0x80 = .ics 0 ∧ decodeWord 0x90 = .brc 0 ∧
  (∀ s : State, (∃ t a, exec (.ics 0) s = .next t ∧ t.fault = some (.illegalCondition 0x80 a 0)) ∧
    (∃ t a, exec (.brc 0) s = .next t ∧ t.fault = some (.illegalCondition 0x90 a 0))) ∧
  (∀ i : Instr, i.wordClass = .fatalCondition ↔ i = .ics 0 ∨ i = .brc 0) ∧
  (∀ (i : Instr) (s t : State), i.wordClass = .defined → exec i s = .next t →
    t.fault = s.fault ∨ ∃ b w a, t.fault = some (.immediateOutOfRange b w a))

/-- R123 (D5; log 5): a fetch beyond ROM raises before anything changes. -/
def Obligations.FetchBeyondRomRaisesBeforeAnyChange : Prop :=
  ∀ s : State, s.Live → 1024 ≤ s.ea →
    step s = .next { s with fault := some (.fetchOutOfRange s.ea) }

/-- R73 (D12, D13; log 4): no step exists from a halted or a faulted state. -/
def Obligations.NoStepAfterHaltOrFault : Prop :=
  ∀ s : State, (s.halted = true → step s = .fault .halted) ∧
    (s.halted = false → s.fault ≠ none → step s = .fault .faulted)

/-! ### Encoding -/

/-- R71 and 95_test_vectors.md: words written out from the encoding table. -/
def Obligations.WrittenOutWordsDecode : Prop :=
  decodeWord 0b00000000 = .nop 0 ∧ decodeWord 0b00001001 = .add 1 ∧ decodeWord 0b00011111 = .bsub 7 ∧
  decodeWord 0b01010011 = .ldi 3 ∧ decodeWord 0b01110011 = .mst 3 ∧ decodeWord 0b10000111 = .ics 7 ∧
  decodeWord 0b10010010 = .brc 2 ∧ decodeWord 0b10110011 = .bsl 3 ∧ decodeWord 0b10111111 = .pst 7 ∧
  decodeWord 0b11001000 = .inc 0 ∧ decodeWord 0b11011000 = .illegal27 0 ∧ decodeWord 0b11111000 = .hlt 0

/-- R59: every word is its opcode field times 8 plus its operand field, and encoding what it decodes to
gives it back. -/
def Obligations.EveryWordIsOpcodeTimesEightPlusOperand : Prop :=
  ∀ w : Byte, (decodeWord w).opcode = w.toNat / 8 ∧ (decodeWord w).operand.toNat = w.toNat % 8 ∧
    w.toNat = (decodeWord w).opcode * 8 + (decodeWord w).operand.toNat ∧ encodeWord (decodeWord w) = w

/-- R59 to R62: decoding the encoding of any laid out instruction, with every operand and every immediate,
gives it back and leaves the bytes after it. -/
def Obligations.DecodeOfEncodeGivesBack : Prop :=
  (∀ i : Instr, decodeWord (encodeWord i) = i) ∧
  ∀ (c : ImageInstr) (rest : List Byte), c.immFits = true →
    decodeBytes (encodeBytes c ++ rest) = .ok (c, rest)

/-- R60, R61: what is decoded from bytes is laid out in exactly those bytes; the decoder stops only on an
empty sequence or a missing immediate. -/
def Obligations.EncodeOfDecodeGivesBack : Prop :=
  ∀ bytes : List Byte,
    (∀ c rest, decodeBytes bytes = .ok (c, rest) →
      encodeBytes c ++ rest = bytes ∧ c.immFits = true ∧
      (encodeBytes c).length = (if c.instr.opcode = 10 ∨ c.instr.opcode = 16 ∨ c.instr.opcode = 18 then 2 else 1)) ∧
    (∀ e, decodeBytes bytes = .error e →
      (e = .noWord ∧ bytes = []) ∨
      (e = .noImmediate ∧ ∃ w, bytes = [w] ∧ (w.toNat / 8 = 10 ∨ w.toNat / 8 = 16 ∨ w.toNat / 8 = 18)))

/-! ### The step and the whole machine -/

/-- R72: a step whose fetch address is in ROM executes the instruction the fetched word decodes to, in the
state at the start of the step; the advance is part of each meaning (R77). -/
def Obligations.StepExecutesTheDecodedWord : Prop :=
  ∀ (s : State) (i : Instr), s.Live → s.ea < 1024 → decodeWord (s.rom.read s.ea) = i →
    step s = exec i s ∧ s.rom.read s.ea = encodeWord i

/-- R74: every live state has a step; it either completes without a fault or ends in the fault state. That
a fault leaves everything but `pc` and `page` as it was is R129, the spec's inference from R120 and its
decision D12 (logs 1, 3); that a fetch beyond ROM is such a next state is decision D5 (log 5). -/
def Obligations.EveryLiveStepCompletesOrRaises : Prop :=
  ∀ s : State, s.Live → ∃ t, step s = .next t ∧ (t.fault = none ∨ (t.fault ≠ none ∧ FaultFrame s t))

/-- R37, R57 (the spec's inference): no step writes ROM. -/
def Obligations.NoStepWritesRom : Prop :=
  ∀ s t : State, step s = .next t → t.rom = s.rom

/-- R27, R30 (the spec's inferences): `pc` stays at most 32 and the page at most 32. -/
def Obligations.StepKeepsPcAndPageInRange : Prop :=
  ∀ s t : State, s.AddressInv → step s = .next t → t.AddressInv

/-- R37, R41: ROM and RAM stay within their sizes, and RAM bytes 8 to 31 stay 0. That both keep their
canonical form is said of the model's own choice of data (log 17), of no rule. -/
def Obligations.StepKeepsMemoryCanonical : Prop :=
  ∀ s t : State, s.MemoryInv → s.HighRamInv → step s = .next t → t.MemoryInv ∧ t.HighRamInv

/-- R132, the spec's inference from R120 and R73: a halted state never holds a fault record, so the ends of
a run exclude each other. It rests on R73's decisions D12 and D13, that no step exists after a fault or
after HLT (log 4), and on D12's fault record in the state (log 1). -/
def Obligations.EveryStepKeepsEndsOfRunApart : Prop :=
  ∀ s t : State, step s = .next t → t.EndInv ∧
    (t.runEnd = .normal ↔ t.halted = true) ∧ (t.runEnd = .abnormal ↔ t.fault ≠ none)

/-- The state after reset, all zero (R36), meets every invariant. That its memories have the canonical form
is said of the model's own choice of data (log 17), of no rule. -/
def Obligations.ResetMeetsTheInvariants : Prop :=
  State.reset.AddressInv ∧ State.reset.MemoryInv ∧ State.reset.HighRamInv ∧ State.reset.EndInv ∧
    State.reset.Live

/-- R31: a step leaves `halted` set exactly when the word it executed is HLT. That a halted state has no
step at all is the spec's decision D13 (R73; log 4); R31 says only that the simulation must stop. -/
def Obligations.HaltedIsSetByHltAlone : Prop :=
  (∀ s t : State, step s = .next t →
    (t.halted = true ↔ ∃ w, wordAt s = some w ∧ w.toNat / 8 = 31)) ∧
  (∀ s : State, s.halted = true → ∀ t, step s ≠ .next t)

/-- R32: the console is empty after reset, a step appends the accumulator to the console exactly when it executes `PST 7`, no step reads the
console, and `flush()` hands over the whole buffer in order and empties it. -/
def Obligations.ConsoleIsAppendedAndNeverRead : Prop :=
  State.reset.console = [] ∧
  (∀ s t : State, step s = .next t → t.console = s.console ++ consoleOutput s) ∧
  (∀ (s t : State) (c : List Byte), step s = .next t →
    step { s with console := c } = .next { t with console := c ++ consoleOutput s }) ∧
  (∀ s : State, s.flush = (s.console, { s with console := [] }))

/-- R42 (the spec's inference): only MST writes RAM, and only MLD reads it. -/
def Obligations.RamIsReachedByMstAndMldAlone : Prop :=
  ∀ (i : Instr) (s t : State), exec i s = .next t →
    ((∀ a, i ≠ .mst a) → t.ram = s.ram) ∧
    ((∀ a, i ≠ .mld a) → ∀ m : Memory, ∃ n : Memory,
      exec i { s with ram := m } = .next { t with ram := n })

/-- R25: only ICS and BRC read the flags; every other instruction leaves the same state whatever they
were, and keeps them unless it defines them. -/
def Obligations.FlagsAreReadByConditionsAlone : Prop :=
  ∀ (i : Instr) (s t : State) (f : Flags), readsFlags i = false → exec i s = .next t →
    exec i { s with flags := f } = .next { t with flags := if writesFlags i then t.flags else f }

/-- R23, R24, R21, R18 (R23 an inference of the spec): an instruction that is not listed as a writer of the
flags, of the accumulator or of the register file leaves it, and a writer of the register file writes its
operand's register alone. -/
def Obligations.OnlyListedInstructionsWrite : Prop :=
  ∀ (i : Instr) (s t : State), exec i s = .next t →
    (writesFlags i = false → t.flags = s.flags) ∧
    (writesAcc i = false → t.acc = s.acc) ∧
    (writesRegs i = false → t.x = s.x) ∧
    RegsKeptBut i.operand s t

/-- R21, R18: an instruction listed as neither reading nor writing the accumulator leaves the same state
whatever it was; one that reads no register leaves the same of every other element whatever the registers
hold, and one that reads a register depends on its operand's register alone. -/
def Obligations.OnlyListedInstructionsRead : Prop :=
  (∀ (i : Instr) (s t : State) (v : Byte), ignoresAcc i = true → exec i s = .next t →
    exec i { s with acc := v } = .next { t with acc := v }) ∧
  (∀ (i : Instr) (s t : State) (y : Vector Byte 7), exec i s = .next t →
    (readsRegs i = false ∨ { s with x := y }.readReg i.operand = s.readReg i.operand) →
    ∃ u, exec i { s with x := y } = .next u ∧ { u with x := t.x } = t)

/-! ### The host's side -/

/-- R137 (the spec's inference; D21) and R147: the driver, which flushes after every step, emits exactly what
the run leaves in the console when nothing is flushed, and ends in the same state. That it runs for a given
number of rounds, without its wait, and flushes after a step that raises too is the model's own choice
(log 20). -/
def Obligations.DriverEmitsTheRunsOutput : Prop :=
  ∀ (n : Nat) (s : State), s.console = [] →
    (drive n s).1 = (runSteps n s).console ∧ (drive n s).2 = { runSteps n s with console := [] }

/-- R136: a flushed byte is spelled by its decimal digits without leading zeros and a line end, which is the
spec's decision D21. That the line end is the single character line feed is the model's own choice
(log 19), of no rule. -/
def Obligations.FlushedByteIsSpelledInDecimal : Prop :=
  ∀ v : Byte, ∃ digits : List Char, spell v = digits ++ ['\n'] ∧
    (∀ c ∈ digits, '0'.toNat ≤ c.toNat ∧ c.toNat ≤ '9'.toNat) ∧
    digits.foldl (fun n c => 10 * n + (c.toNat - '0'.toNat)) 0 = v.toNat ∧
    (digits.head? = some '0' → digits = ['0']) ∧ digits ≠ []

/-- R145, R146. A token has a value exactly when it is a non-empty string of `0` and `1` whose base-2 value
is at most 255 (decision D23). A comment line gives no byte, and any other line the values of those of its
tokens that have one, in order: every line is a first token and further pairs of a blank and a token,
where an empty token stands for no token. The text's lines give their bytes in turn, a comment line none,
whatever it holds. Which characters are blanks and which ends a line is the model's choice (log 18). -/
def Obligations.CommentLinesAddNoByte : Prop :=
  (∀ token : List Char, tokenValue token = literalValue token) ∧
  (∀ comment : List Char, lineBytes ('/' :: comment) = []) ∧
  (∀ (t : List Char) (more : List (Char × List Char)), BlankFree t → t.head? ≠ some '/' →
    (∀ p ∈ more, IsBlank p.1 ∧ BlankFree p.2) →
    lineBytes (lineOfTokens t more) = bytesOfTokens (t :: more.map Prod.snd)) ∧
  (∀ line rest : List Char, '\n' ∉ line →
    imageOfText line = lineBytes line ∧
    imageOfText (line ++ '\n' :: rest) = lineBytes line ++ imageOfText rest) ∧
  (∀ comment rest : List Char, '\n' ∉ comment →
    imageOfText ('/' :: comment ++ '\n' :: rest) = imageOfText rest)

/-- R143, R149 with D14, D15 (log 14), and R37: in every sequence of host calls that the model admits on a
constructed core, at most one is a load, only flushes come before it, and ROM holds its image from then
on; with no load ROM stays 0. That a further load is refused is the spec's decision D15. -/
def Obligations.RomIsLoadedOnceBeforeTheFirstStep : Prop :=
  ∀ (calls : List HostCall) (x : Session), Session.constructed.calls calls = some x →
    (∀ (before after : List HostCall) (image : List Byte), calls = before ++ .load image :: after →
      (∀ c ∈ before, c = .flush) ∧ (∀ other, .load other ∉ after) ∧ image.length ≤ 1024 ∧
      (∀ a, x.core.rom.read a = (image[a]?).getD 0)) ∧
    ((∀ image, .load image ∉ calls) → ∀ a, x.core.rom.read a = 0)
end

