-- ==== Sys2Proof/Laws/Memory.lean ====
section
/-! SUPPORT. The laws of sparse memory: read after write, and that every operation keeps the canonical
form, in which equal contents are equal data. -/

namespace Sys2Proof.Machine

@[simp] theorem Memory.read_nil (a : Nat) : Memory.read [] a = Config.unwrittenByte := rfl

theorem Memory.read_cons (b : Nat) (v : Byte) (m : Memory) (a : Nat) :
    Memory.read ((b, v) :: m) a = if a = b then v else m.read a := rfl

theorem Memory.wf_nil (size : Nat) : Memory.wf size [] := by
  simp [Memory.wf]

theorem Memory.wf_tail {size : Nat} {c : Host.Cell} {m : Memory} (h : Memory.wf size (c :: m)) :
    m.wf size :=
  ⟨(List.pairwise_cons.mp h.1).2, fun d hd => h.2 d (List.mem_cons_of_mem _ hd)⟩

/-- Below every entry, memory reads as unwritten. -/
theorem Memory.read_below {m : Memory} {a : Nat} (h : ∀ c ∈ m, a < c.1) :
    m.read a = Config.unwrittenByte := by
  induction m with
  | nil => rfl
  | cons c m ih =>
    have hc := h c (List.mem_cons_self ..)
    have hm := ih fun d hd => h d (List.mem_cons_of_mem _ hd)
    obtain ⟨b, v⟩ := c
    rw [Memory.read_cons, if_neg (by simp at hc; omega), hm]

/-- Read after write, for a memory whose addresses rise. -/
theorem Memory.read_write {m : Memory} (h : m.Pairwise (fun c d => c.1 < d.1)) (a b : Nat) (v : Byte) :
    (m.write a v).read b = if b = a then v else m.read b := by
  induction m with
  | nil =>
    unfold Memory.write
    split <;> simp_all [Memory.read_cons]
  | cons c m ih =>
    obtain ⟨d, u⟩ := c
    obtain ⟨hd, hm⟩ := List.pairwise_cons.mp h
    have hlow : ∀ e, e ≤ d → Memory.read m e = Config.unwrittenByte := fun e he =>
      Memory.read_below fun c hc => by have := hd c hc; simp at this; omega
    unfold Memory.write
    split
    · split
      · rename_i had hv
        by_cases hb : b = a
        · subst hb; simp [Memory.read_cons, hlow b (by omega), hv]; omega
        · simp [hb]
      · simp [Memory.read_cons]
    · split
      · rename_i had
        subst had
        split
        · rename_i hv
          by_cases hb : b = a
          · subst hb; simp [hlow b (le_refl _), hv]
          · simp [Memory.read_cons, hb]
        · simp only [Memory.read_cons]; split <;> rfl
      · rw [Memory.read_cons, Memory.read_cons, ih hm]
        by_cases hb : b = d
        · subst hb; simp; omega
        · simp [hb]

/-- What is listed after a write was listed before or is the entry written. -/
theorem Memory.mem_write {m : Memory} {a : Nat} {v : Byte} {c : Host.Cell} (h : c ∈ m.write a v) :
    c ∈ m ∨ (c = (a, v) ∧ v ≠ Config.unwrittenByte) := by
  induction m with
  | nil =>
    unfold Memory.write at h
    split at h <;> simp_all
  | cons d m ih =>
    obtain ⟨d, u⟩ := d
    unfold Memory.write at h
    split at h
    · split at h
      · exact .inl h
      · rcases List.mem_cons.mp h with h | h
        · exact .inr ⟨h, ‹_›⟩
        · exact .inl h
    · split at h
      · split at h
        · exact .inl (List.mem_cons_of_mem _ h)
        · rcases List.mem_cons.mp h with h | h
          · exact .inr ⟨h, ‹_›⟩
          · exact .inl (List.mem_cons_of_mem _ h)
      · rcases List.mem_cons.mp h with h | h
        · exact .inl (h ▸ List.mem_cons_self ..)
        · exact (ih h).imp_left (List.mem_cons_of_mem _)

theorem Memory.pairwise_write {m : Memory} (h : m.Pairwise (fun c d => c.1 < d.1)) (a : Nat) (v : Byte) :
    (m.write a v).Pairwise (fun c d => c.1 < d.1) := by
  induction m with
  | nil =>
    unfold Memory.write
    split <;> simp
  | cons c m ih =>
    obtain ⟨d, u⟩ := c
    obtain ⟨hd, hm⟩ := List.pairwise_cons.mp h
    unfold Memory.write
    split
    · rename_i had
      split
      · exact h
      · refine List.pairwise_cons.mpr ⟨fun c hc => ?_, h⟩
        rcases List.mem_cons.mp hc with rfl | hc
        · exact had
        · exact had.trans (hd c hc)
    · split
      · rename_i had
        subst had
        split
        · exact hm
        · exact List.pairwise_cons.mpr ⟨hd, hm⟩
      · refine List.pairwise_cons.mpr ⟨fun c hc => ?_, ih hm⟩
        rcases Memory.mem_write hc with hc | ⟨rfl, -⟩
        · exact hd c hc
        · show d < a; omega

/-- A write inside the address space keeps the canonical form. -/
theorem Memory.write_wf {size : Nat} {m : Memory} (h : m.wf size) {a : Nat} (ha : a < size) (v : Byte) :
    (m.write a v).wf size := by
  refine ⟨Memory.pairwise_write h.1 a v, fun c hc => ?_⟩
  rcases Memory.mem_write hc with hc | ⟨rfl, hv⟩
  · exact h.2 c hc
  · exact ⟨ha, hv⟩

/-- A block write inside the address space keeps the canonical form. -/
theorem Memory.writeBytes_wf {size : Nat} {m : Memory} (h : m.wf size) {a : Nat} (vs : List Byte)
    (ha : a + vs.length ≤ size) : (m.writeBytes a vs).wf size := by
  induction vs generalizing m a with
  | nil => exact h
  | cons v vs ih =>
    simp only [List.length_cons] at ha
    exact ih (Memory.write_wf h (by omega) v) (by omega)

/-- What a block write leaves at each address. -/
theorem Memory.read_writeBytes {m : Memory} (h : m.Pairwise (fun c d => c.1 < d.1)) (a b : Nat)
    (vs : List Byte) :
    (m.writeBytes a vs).read b = if a ≤ b then (vs[b - a]?).getD (m.read b) else m.read b := by
  induction vs generalizing m a with
  | nil => simp [Memory.writeBytes]
  | cons v vs ih =>
    rw [Memory.writeBytes, ih (Memory.pairwise_write h a v), Memory.read_write h]
    by_cases h1 : a + 1 ≤ b
    · have h2 : b - a = (b - (a + 1)) + 1 := by omega
      simp [h1, show a ≤ b by omega, show b ≠ a by omega, h2]
    · by_cases h3 : b = a
      · subst h3; simp
      · simp [h1, h3, show ¬ a ≤ b by omega]

/-- In canonical form, a listed address reads as its entry. -/
theorem Memory.read_of_mem {m : Memory} (h : m.Pairwise (fun c d => c.1 < d.1)) {c : Host.Cell}
    (hc : c ∈ m) : m.read c.1 = c.2 := by
  induction m with
  | nil => cases hc
  | cons d m ih =>
    obtain ⟨d, u⟩ := d
    obtain ⟨hd, hm⟩ := List.pairwise_cons.mp h
    rcases List.mem_cons.mp hc with rfl | hc
    · simp [Memory.read_cons]
    · have := hd c hc
      rw [Memory.read_cons, if_neg (by simp at this; omega), ih hm hc]

/-- Equal contents in canonical form are equal data. -/
theorem Memory.wf_ext {size : Nat} {m n : Memory} (hm : m.wf size) (hn : n.wf size)
    (h : ∀ a, m.read a = n.read a) : m = n := by
  have sub : ∀ {p q : Memory}, p.wf size → q.wf size → (∀ a, p.read a = q.read a) → ∀ c ∈ p, c ∈ q := by
    intro p q hp hq hpq c hc
    by_contra hno
    have h1 := Memory.read_of_mem hp.1 hc
    have h2 : q.read c.1 = Config.unwrittenByte ∨ ∃ d ∈ q, d.1 = c.1 := by
      clear hp hpq hc h1 hno hq
      induction q with
      | nil => exact .inl rfl
      | cons d q ih =>
        obtain ⟨d, u⟩ := d
        by_cases he : c.1 = d
        · exact .inr ⟨(d, u), List.mem_cons_self .., he.symm⟩
        · rw [Memory.read_cons, if_neg he]
          exact ih.imp_right fun ⟨e, he, h⟩ => ⟨e, List.mem_cons_of_mem _ he, h⟩
    rcases h2 with h2 | ⟨d, hd, hdc⟩
    · exact (hp.2 c hc).2 (by rw [← h1, hpq, h2])
    · have h3 := Memory.read_of_mem hq.1 hd
      rw [hdc, ← hpq, h1] at h3
      exact hno (by rw [show c = d from Prod.ext hdc.symm h3]; exact hd)
  have nodup : ∀ {p : Memory}, p.wf size → p.Nodup := fun hp =>
    hp.1.imp fun {a b} hab he => by subst he; exact absurd hab (lt_irrefl _)
  refine List.Perm.eq_of_pairwise (le := fun c d => c.1 < d.1) ?_ hm.1 hn.1
    ((List.perm_ext_iff_of_nodup (nodup hm) (nodup hn)).mpr fun c =>
      ⟨sub hm hn h c, sub hn hm (fun a => (h a).symm) c⟩)
  intro a b _ _ hab hba
  exact absurd (hab.trans hba) (lt_irrefl _)

end Sys2Proof.Machine
end

