-- ==== Sys2Proof/Laws/Boundary.lean ====
section
/-! SUPPORT. Small laws of the host's operations: what a load and a call can do, the digits of a flushed
byte, and cutting a text into pieces. -/

namespace Sys2Proof.Machine

/-! ### Load and the host's calls -/

@[simp] theorem Session.core_constructed : Session.constructed.core = State.reset := rfl
@[simp] theorem Session.core_started (s : State) : (Session.started s).core = s := rfl
@[simp] theorem Session.load_started (s : State) (image : List Byte) :
    (Session.started s).load image = none := rfl

/-- All that `load` can do. -/
theorem Session.load_eq_some {x y : Session} {image : List Byte} :
    x.load image = some y ↔ x = .constructed ∧ image.length ≤ Config.romSize ∧
      y = .started (State.reset.withImage image) := by
  cases x <;> simp [Session.load, eq_comm]

/-- What a loaded ROM reads. -/
theorem State.read_withImage {s : State} (h : s.rom.wf Config.romSize) (image : List Byte) (a : Nat) :
    (s.withImage image).rom.read a = (image[a]?).getD (s.rom.read a) := by
  simp [State.withImage, Memory.read_writeBytes h.1]

/-- A load that fits keeps ROM canonical. -/
theorem State.withImage_wf {s : State} (h : s.rom.wf Config.romSize) {image : List Byte}
    (hn : image.length ≤ Config.romSize) : (s.withImage image).rom.wf Config.romSize :=
  Memory.writeBytes_wf h image (by simpa using hn)

/-- All that the host's `step` can do. -/
theorem Session.step_eq_some {x y : Session} :
    x.step = some y ↔ ∃ t, Machine.step x.core = .next t ∧ y = .started t := by
  unfold Session.step
  cases Machine.step x.core <;> simp [eq_comm]

/-- A flush changes the console alone. -/
theorem Session.core_flush (x : Session) : x.flush.2.core = { x.core with console := [] } := by
  cases x <;> rfl

@[simp] theorem Session.call_load (x : Session) (image : List Byte) : x.call (.load image) = x.load image := rfl
@[simp] theorem Session.call_step (x : Session) : x.call .step = x.step := rfl
@[simp] theorem Session.call_flush (x : Session) : x.call .flush = some x.flush.2 := rfl

@[simp] theorem Session.calls_nil (x : Session) : x.calls [] = some x := rfl

theorem Session.calls_cons {x z : Session} {c : HostCall} {cs : List HostCall} :
    x.calls (c :: cs) = some z ↔ ∃ y, x.call c = some y ∧ y.calls cs = some z := by
  simp only [Session.calls]
  cases x.call c <;> simp

/-! ### Text -/

/-- A token with a value holds digits of base 2 alone. -/
theorem digits_of_digitsValue {n v : Nat} {t : List Char} (h : digitsValue n t = some v) :
    ∀ c ∈ t, c = '0' ∨ c = '1' := by
  induction t generalizing n with
  | nil => simp
  | cons c t ih =>
    unfold digitsValue at h
    split at h
    · simpa [‹c = '0'›] using ih h
    · split at h
      · simpa [‹c = '1'›] using ih h
      · cases h

/-- A digit's character lies `n % 10` above `0`. -/
theorem digitChar_toNat (n : Nat) : (digitChar n).toNat = 48 + n % 10 := by
  have h : n % 10 < 10 := Nat.mod_lt _ (by decide)
  unfold digitChar
  generalize n % 10 = d at h
  have : ∀ d : Fin 10, (Char.ofNat (48 + d.val)).toNat = 48 + d.val := by decide
  exact this ⟨d, h⟩

/-- Cutting never gives no piece. -/
theorem splitAtChars_ne_nil (p : Char → Bool) (l : List Char) : splitAtChars p l ≠ [] := by
  cases l with
  | nil => simp [splitAtChars]
  | cons c cs =>
    unfold splitAtChars
    split
    · simp
    · split <;> simp

/-- A separator starts a new piece. -/
theorem splitAtChars_sep {p : Char → Bool} {c : Char} (h : p c = true) (l : List Char) :
    splitAtChars p (c :: l) = [] :: splitAtChars p l := by
  have hne := splitAtChars_ne_nil p l
  conv_lhs => unfold splitAtChars
  cases hs : splitAtChars p l with
  | nil => exact absurd hs hne
  | cons t ts => simp [h]

/-- Text without a separator is one piece. -/
theorem splitAtChars_none {p : Char → Bool} {t : List Char} (h : ∀ c ∈ t, p c = false) :
    splitAtChars p t = [t] := by
  induction t with
  | nil => rfl
  | cons c t ih =>
    rw [splitAtChars, ih fun d hd => h d (List.mem_cons_of_mem _ hd)]
    simp [h c List.mem_cons_self]

/-- The first separator ends the first piece. -/
theorem splitAtChars_append {p : Char → Bool} {t : List Char} (h : ∀ c ∈ t, p c = false) {c : Char}
    (hc : p c = true) (l : List Char) :
    splitAtChars p (t ++ c :: l) = t :: splitAtChars p l := by
  induction t with
  | nil => exact splitAtChars_sep hc l
  | cons d t ih =>
    rw [List.cons_append, splitAtChars, ih fun e he => h e (List.mem_cons_of_mem _ he)]
    simp [h d List.mem_cons_self]

end Sys2Proof.Machine
end

