-- ==== Sys2Proof/Laws/Decode.lean ====
section
/-! SUPPORT. What the decoder over byte sequences answers, by the format of the first word. -/

namespace Sys2Proof

theorem decodeBytes_nil : decodeBytes [] = .error .noWord := rfl

/-- Format `B`: the word alone (R60). -/
theorem decodeBytes_b {w : Byte} (h : (decodeWord w).format = .b) (rest : List Byte) :
    decodeBytes (w :: rest) = .ok (⟨decodeWord w, none⟩, rest) := by
  simp [decodeBytes, h]

/-- Format `BI`: the word and the byte after it (R60). -/
theorem decodeBytes_bi {w : Byte} (h : (decodeWord w).format = .bi) (imm : Byte) (rest : List Byte) :
    decodeBytes (w :: imm :: rest) = .ok (⟨decodeWord w, some imm⟩, rest) := by
  simp [decodeBytes, h]

/-- Format `BI` with no byte after the word. -/
theorem decodeBytes_bi_nil {w : Byte} (h : (decodeWord w).format = .bi) :
    decodeBytes [w] = .error .noImmediate := by
  simp [decodeBytes, h]

end Sys2Proof
end

