-- ==== Sys2Proof/Laws/State.lean ====
section
/-! SUPPORT. One lemma for each field of the state under each named update, true by definition, so that
no proof unfolds a record update. -/

namespace Sys2Proof.Machine

variable (s : State)

/-! ### incPc -/

@[simp] theorem State.incPc_x : (s.incPc).x = s.x := rfl
@[simp] theorem State.incPc_acc : (s.incPc).acc = s.acc := rfl
@[simp] theorem State.incPc_flags : (s.incPc).flags = s.flags := rfl
@[simp] theorem State.incPc_pc : (s.incPc).pc = nextPc s.pc := rfl
@[simp] theorem State.incPc_page : (s.incPc).page = nextPage s.pc s.page := rfl
@[simp] theorem State.incPc_halted : (s.incPc).halted = s.halted := rfl
@[simp] theorem State.incPc_ram : (s.incPc).ram = s.ram := rfl
@[simp] theorem State.incPc_rom : (s.incPc).rom = s.rom := rfl
@[simp] theorem State.incPc_console : (s.incPc).console = s.console := rfl
@[simp] theorem State.incPc_fault : (s.incPc).fault = s.fault := rfl

/-! ### setAcc -/

@[simp] theorem State.setAcc_x (v : Byte) : (s.setAcc v).x = s.x := rfl
@[simp] theorem State.setAcc_acc (v : Byte) : (s.setAcc v).acc = v := rfl
@[simp] theorem State.setAcc_flags (v : Byte) : (s.setAcc v).flags = s.flags := rfl
@[simp] theorem State.setAcc_pc (v : Byte) : (s.setAcc v).pc = s.pc := rfl
@[simp] theorem State.setAcc_page (v : Byte) : (s.setAcc v).page = s.page := rfl
@[simp] theorem State.setAcc_halted (v : Byte) : (s.setAcc v).halted = s.halted := rfl
@[simp] theorem State.setAcc_ram (v : Byte) : (s.setAcc v).ram = s.ram := rfl
@[simp] theorem State.setAcc_rom (v : Byte) : (s.setAcc v).rom = s.rom := rfl
@[simp] theorem State.setAcc_console (v : Byte) : (s.setAcc v).console = s.console := rfl
@[simp] theorem State.setAcc_fault (v : Byte) : (s.setAcc v).fault = s.fault := rfl

/-! ### setFlags -/

@[simp] theorem State.setFlags_x (f : Flags) : (s.setFlags f).x = s.x := rfl
@[simp] theorem State.setFlags_acc (f : Flags) : (s.setFlags f).acc = s.acc := rfl
@[simp] theorem State.setFlags_flags (f : Flags) : (s.setFlags f).flags = f := rfl
@[simp] theorem State.setFlags_pc (f : Flags) : (s.setFlags f).pc = s.pc := rfl
@[simp] theorem State.setFlags_page (f : Flags) : (s.setFlags f).page = s.page := rfl
@[simp] theorem State.setFlags_halted (f : Flags) : (s.setFlags f).halted = s.halted := rfl
@[simp] theorem State.setFlags_ram (f : Flags) : (s.setFlags f).ram = s.ram := rfl
@[simp] theorem State.setFlags_rom (f : Flags) : (s.setFlags f).rom = s.rom := rfl
@[simp] theorem State.setFlags_console (f : Flags) : (s.setFlags f).console = s.console := rfl
@[simp] theorem State.setFlags_fault (f : Flags) : (s.setFlags f).fault = s.fault := rfl

/-! ### setAccFlags -/

@[simp] theorem State.setAccFlags_x (r : Byte × Flags) : (s.setAccFlags r).x = s.x := rfl
@[simp] theorem State.setAccFlags_acc (r : Byte × Flags) : (s.setAccFlags r).acc = r.1 := rfl
@[simp] theorem State.setAccFlags_flags (r : Byte × Flags) : (s.setAccFlags r).flags = r.2 := rfl
@[simp] theorem State.setAccFlags_pc (r : Byte × Flags) : (s.setAccFlags r).pc = s.pc := rfl
@[simp] theorem State.setAccFlags_page (r : Byte × Flags) : (s.setAccFlags r).page = s.page := rfl
@[simp] theorem State.setAccFlags_halted (r : Byte × Flags) : (s.setAccFlags r).halted = s.halted := rfl
@[simp] theorem State.setAccFlags_ram (r : Byte × Flags) : (s.setAccFlags r).ram = s.ram := rfl
@[simp] theorem State.setAccFlags_rom (r : Byte × Flags) : (s.setAccFlags r).rom = s.rom := rfl
@[simp] theorem State.setAccFlags_console (r : Byte × Flags) : (s.setAccFlags r).console = s.console := rfl
@[simp] theorem State.setAccFlags_fault (r : Byte × Flags) : (s.setAccFlags r).fault = s.fault := rfl

/-! ### setPc -/

@[simp] theorem State.setPc_x (p : BitVec 6) : (s.setPc p).x = s.x := rfl
@[simp] theorem State.setPc_acc (p : BitVec 6) : (s.setPc p).acc = s.acc := rfl
@[simp] theorem State.setPc_flags (p : BitVec 6) : (s.setPc p).flags = s.flags := rfl
@[simp] theorem State.setPc_pc (p : BitVec 6) : (s.setPc p).pc = p := rfl
@[simp] theorem State.setPc_page (p : BitVec 6) : (s.setPc p).page = s.page := rfl
@[simp] theorem State.setPc_halted (p : BitVec 6) : (s.setPc p).halted = s.halted := rfl
@[simp] theorem State.setPc_ram (p : BitVec 6) : (s.setPc p).ram = s.ram := rfl
@[simp] theorem State.setPc_rom (p : BitVec 6) : (s.setPc p).rom = s.rom := rfl
@[simp] theorem State.setPc_console (p : BitVec 6) : (s.setPc p).console = s.console := rfl
@[simp] theorem State.setPc_fault (p : BitVec 6) : (s.setPc p).fault = s.fault := rfl

/-! ### setPage -/

@[simp] theorem State.setPage_x (v : Byte) : (s.setPage v).x = s.x := rfl
@[simp] theorem State.setPage_acc (v : Byte) : (s.setPage v).acc = s.acc := rfl
@[simp] theorem State.setPage_flags (v : Byte) : (s.setPage v).flags = s.flags := rfl
@[simp] theorem State.setPage_pc (v : Byte) : (s.setPage v).pc = s.pc := rfl
@[simp] theorem State.setPage_page (v : Byte) : (s.setPage v).page = v := rfl
@[simp] theorem State.setPage_halted (v : Byte) : (s.setPage v).halted = s.halted := rfl
@[simp] theorem State.setPage_ram (v : Byte) : (s.setPage v).ram = s.ram := rfl
@[simp] theorem State.setPage_rom (v : Byte) : (s.setPage v).rom = s.rom := rfl
@[simp] theorem State.setPage_console (v : Byte) : (s.setPage v).console = s.console := rfl
@[simp] theorem State.setPage_fault (v : Byte) : (s.setPage v).fault = s.fault := rfl

/-! ### halt -/

@[simp] theorem State.halt_x : (s.halt).x = s.x := rfl
@[simp] theorem State.halt_acc : (s.halt).acc = s.acc := rfl
@[simp] theorem State.halt_flags : (s.halt).flags = s.flags := rfl
@[simp] theorem State.halt_pc : (s.halt).pc = s.pc := rfl
@[simp] theorem State.halt_page : (s.halt).page = s.page := rfl
@[simp] theorem State.halt_halted : (s.halt).halted = true := rfl
@[simp] theorem State.halt_ram : (s.halt).ram = s.ram := rfl
@[simp] theorem State.halt_rom : (s.halt).rom = s.rom := rfl
@[simp] theorem State.halt_console : (s.halt).console = s.console := rfl
@[simp] theorem State.halt_fault : (s.halt).fault = s.fault := rfl

/-! ### raise -/

@[simp] theorem State.raise_x (f : FaultRecord) : (s.raise f).x = s.x := rfl
@[simp] theorem State.raise_acc (f : FaultRecord) : (s.raise f).acc = s.acc := rfl
@[simp] theorem State.raise_flags (f : FaultRecord) : (s.raise f).flags = s.flags := rfl
@[simp] theorem State.raise_pc (f : FaultRecord) : (s.raise f).pc = s.pc := rfl
@[simp] theorem State.raise_page (f : FaultRecord) : (s.raise f).page = s.page := rfl
@[simp] theorem State.raise_halted (f : FaultRecord) : (s.raise f).halted = s.halted := rfl
@[simp] theorem State.raise_ram (f : FaultRecord) : (s.raise f).ram = s.ram := rfl
@[simp] theorem State.raise_rom (f : FaultRecord) : (s.raise f).rom = s.rom := rfl
@[simp] theorem State.raise_console (f : FaultRecord) : (s.raise f).console = s.console := rfl
@[simp] theorem State.raise_fault (f : FaultRecord) : (s.raise f).fault = some f := rfl

/-! ### writeReg -/

@[simp] theorem State.writeReg_x (r : RegAddr) (v : Byte) : (s.writeReg r v).x = if r = 0 then s.x else s.x.setIfInBounds (r.toNat - 1) v := rfl
@[simp] theorem State.writeReg_acc (r : RegAddr) (v : Byte) : (s.writeReg r v).acc = s.acc := rfl
@[simp] theorem State.writeReg_flags (r : RegAddr) (v : Byte) : (s.writeReg r v).flags = s.flags := rfl
@[simp] theorem State.writeReg_pc (r : RegAddr) (v : Byte) : (s.writeReg r v).pc = s.pc := rfl
@[simp] theorem State.writeReg_page (r : RegAddr) (v : Byte) : (s.writeReg r v).page = s.page := rfl
@[simp] theorem State.writeReg_halted (r : RegAddr) (v : Byte) : (s.writeReg r v).halted = s.halted := rfl
@[simp] theorem State.writeReg_ram (r : RegAddr) (v : Byte) : (s.writeReg r v).ram = s.ram := rfl
@[simp] theorem State.writeReg_rom (r : RegAddr) (v : Byte) : (s.writeReg r v).rom = s.rom := rfl
@[simp] theorem State.writeReg_console (r : RegAddr) (v : Byte) : (s.writeReg r v).console = s.console := rfl
@[simp] theorem State.writeReg_fault (r : RegAddr) (v : Byte) : (s.writeReg r v).fault = s.fault := rfl

/-! ### memWrite -/

@[simp] theorem State.memWrite_x (a : RamAddr) (v : Byte) : (s.memWrite a v).x = s.x := rfl
@[simp] theorem State.memWrite_acc (a : RamAddr) (v : Byte) : (s.memWrite a v).acc = s.acc := rfl
@[simp] theorem State.memWrite_flags (a : RamAddr) (v : Byte) : (s.memWrite a v).flags = s.flags := rfl
@[simp] theorem State.memWrite_pc (a : RamAddr) (v : Byte) : (s.memWrite a v).pc = s.pc := rfl
@[simp] theorem State.memWrite_page (a : RamAddr) (v : Byte) : (s.memWrite a v).page = s.page := rfl
@[simp] theorem State.memWrite_halted (a : RamAddr) (v : Byte) : (s.memWrite a v).halted = s.halted := rfl
@[simp] theorem State.memWrite_ram (a : RamAddr) (v : Byte) : (s.memWrite a v).ram = s.ram.write (ramAddress a) v := rfl
@[simp] theorem State.memWrite_rom (a : RamAddr) (v : Byte) : (s.memWrite a v).rom = s.rom := rfl
@[simp] theorem State.memWrite_console (a : RamAddr) (v : Byte) : (s.memWrite a v).console = s.console := rfl
@[simp] theorem State.memWrite_fault (a : RamAddr) (v : Byte) : (s.memWrite a v).fault = s.fault := rfl

/-! ### portWrite -/

@[simp] theorem State.portWrite_x (p : PortNum) (v : Byte) : (s.portWrite p v).x = s.x := rfl
@[simp] theorem State.portWrite_acc (p : PortNum) (v : Byte) : (s.portWrite p v).acc = s.acc := rfl
@[simp] theorem State.portWrite_flags (p : PortNum) (v : Byte) : (s.portWrite p v).flags = s.flags := rfl
@[simp] theorem State.portWrite_pc (p : PortNum) (v : Byte) : (s.portWrite p v).pc = s.pc := rfl
@[simp] theorem State.portWrite_page (p : PortNum) (v : Byte) : (s.portWrite p v).page = s.page := rfl
@[simp] theorem State.portWrite_halted (p : PortNum) (v : Byte) : (s.portWrite p v).halted = s.halted := rfl
@[simp] theorem State.portWrite_ram (p : PortNum) (v : Byte) : (s.portWrite p v).ram = s.ram := rfl
@[simp] theorem State.portWrite_rom (p : PortNum) (v : Byte) : (s.portWrite p v).rom = s.rom := rfl
@[simp] theorem State.portWrite_console (p : PortNum) (v : Byte) : (s.portWrite p v).console = if p = Config.consolePort then s.console ++ [v] else s.console := rfl
@[simp] theorem State.portWrite_fault (p : PortNum) (v : Byte) : (s.portWrite p v).fault = s.fault := rfl

/-! ### placeRom -/

@[simp] theorem State.placeRom_x (a : Nat) (v : Byte) : (s.placeRom a v).x = s.x := rfl
@[simp] theorem State.placeRom_acc (a : Nat) (v : Byte) : (s.placeRom a v).acc = s.acc := rfl
@[simp] theorem State.placeRom_flags (a : Nat) (v : Byte) : (s.placeRom a v).flags = s.flags := rfl
@[simp] theorem State.placeRom_pc (a : Nat) (v : Byte) : (s.placeRom a v).pc = s.pc := rfl
@[simp] theorem State.placeRom_page (a : Nat) (v : Byte) : (s.placeRom a v).page = s.page := rfl
@[simp] theorem State.placeRom_halted (a : Nat) (v : Byte) : (s.placeRom a v).halted = s.halted := rfl
@[simp] theorem State.placeRom_ram (a : Nat) (v : Byte) : (s.placeRom a v).ram = s.ram := rfl
@[simp] theorem State.placeRom_rom (a : Nat) (v : Byte) : (s.placeRom a v).rom = if a < Config.romSize then s.rom.write a v else s.rom := rfl
@[simp] theorem State.placeRom_console (a : Nat) (v : Byte) : (s.placeRom a v).console = s.console := rfl
@[simp] theorem State.placeRom_fault (a : Nat) (v : Byte) : (s.placeRom a v).fault = s.fault := rfl

/-! ### flush -/

@[simp] theorem State.flush_emitted : s.flush.1 = s.console := rfl
@[simp] theorem State.flush_x : s.flush.2.x = s.x := rfl
@[simp] theorem State.flush_acc : s.flush.2.acc = s.acc := rfl
@[simp] theorem State.flush_flags : s.flush.2.flags = s.flags := rfl
@[simp] theorem State.flush_pc : s.flush.2.pc = s.pc := rfl
@[simp] theorem State.flush_page : s.flush.2.page = s.page := rfl
@[simp] theorem State.flush_halted : s.flush.2.halted = s.halted := rfl
@[simp] theorem State.flush_ram : s.flush.2.ram = s.ram := rfl
@[simp] theorem State.flush_rom : s.flush.2.rom = s.rom := rfl
@[simp] theorem State.flush_console : s.flush.2.console = [] := rfl
@[simp] theorem State.flush_fault : s.flush.2.fault = s.fault := rfl

end Sys2Proof.Machine
end

