-- ==== Sys2Proof/Laws/Ops.lean ====
section
/-! SUPPORT. What each shared operation does, said once; later proofs cite these. -/

namespace Sys2Proof.Machine

/-! ### Register file -/

/-- The zero register (R16). -/
@[simp] theorem State.readReg_zero (s : State) : s.readReg 0 = 0 := rfl

/-- The register file alone decides what is read. -/
theorem State.readReg_congr {s t : State} (h : t.x = s.x) (r : RegAddr) : t.readReg r = s.readReg r := by
  unfold State.readReg; rw [h]

/-- A read sees the last write, except at address 0 (R16, R17). -/
theorem State.readReg_writeReg (s : State) (r q : RegAddr) (v : Byte) :
    (s.writeReg r v).readReg q = if q = r ∧ r ≠ 0 then v else s.readReg q := by
  have toNat_ne : ∀ {c : RegAddr}, c ≠ 0 → c.toNat ≠ 0 := fun hc h =>
    hc (BitVec.eq_of_toNat_eq (by simpa using h))
  by_cases hr : r = 0
  · rw [if_neg (fun h : q = r ∧ r ≠ 0 => h.2 hr)]
    exact State.readReg_congr (by rw [State.writeReg_x, if_pos hr]) q
  by_cases hq : q = 0
  · rw [if_neg (fun h : q = r ∧ r ≠ 0 => hr (h.1 ▸ hq)), hq]; rfl
  have hrn := toNat_ne hr
  have hqn := toNat_ne hq
  have hqlt := q.isLt
  unfold State.readReg
  rw [if_neg hq, if_neg hq, State.writeReg_x, if_neg hr, Vector.getElem?_setIfInBounds]
  by_cases he : q = r
  · subst he; rw [if_pos rfl, if_pos (by omega), if_pos ⟨rfl, hr⟩]; rfl
  · have hne : q.toNat ≠ r.toNat := fun h => he (BitVec.eq_of_toNat_eq h)
    rw [if_neg (by omega), if_neg (fun h : q = r ∧ r ≠ 0 => he h.1)]

@[simp] theorem State.readReg_incPc (s : State) (r : RegAddr) : s.incPc.readReg r = s.readReg r := rfl
@[simp] theorem State.readReg_setAcc (s : State) (v : Byte) (r : RegAddr) :
    (s.setAcc v).readReg r = s.readReg r := rfl
@[simp] theorem State.readReg_setFlags (s : State) (f : Flags) (r : RegAddr) :
    (s.setFlags f).readReg r = s.readReg r := rfl
@[simp] theorem State.readReg_setAccFlags (s : State) (p : Byte × Flags) (r : RegAddr) :
    (s.setAccFlags p).readReg r = s.readReg r := rfl
@[simp] theorem State.readReg_setPc (s : State) (p : BitVec 6) (r : RegAddr) :
    (s.setPc p).readReg r = s.readReg r := rfl
@[simp] theorem State.readReg_setPage (s : State) (v : Byte) (r : RegAddr) :
    (s.setPage v).readReg r = s.readReg r := rfl
@[simp] theorem State.readReg_halt (s : State) (r : RegAddr) : s.halt.readReg r = s.readReg r := rfl
@[simp] theorem State.readReg_raise (s : State) (f : FaultRecord) (r : RegAddr) :
    (s.raise f).readReg r = s.readReg r := rfl
@[simp] theorem State.readReg_memWrite (s : State) (a : RamAddr) (v : Byte) (r : RegAddr) :
    (s.memWrite a v).readReg r = s.readReg r := rfl
@[simp] theorem State.readReg_portWrite (s : State) (p : PortNum) (v : Byte) (r : RegAddr) :
    (s.portWrite p v).readReg r = s.readReg r := rfl

/-! ### Program counter and page -/

theorem nextPc_wrap : nextPc 32 = 0 := rfl
theorem nextPc_step {pc : BitVec 6} (h : pc ≠ 32) : nextPc pc = pc + 1 := if_neg h
theorem nextPage_wrap (page : Byte) : nextPage 32 page = page + 1 := rfl
theorem nextPage_step {pc : BitVec 6} (h : pc ≠ 32) (page : Byte) : nextPage pc page = page :=
  if_neg h

/-- The advance keeps `pc` at most 32 (R27). -/
theorem nextPc_le {pc : BitVec 6} (h : pc.toNat ≤ 32) : (nextPc pc).toNat ≤ 32 := by
  unfold nextPc
  split
  · simp
  · rename_i hne
    have : pc.toNat ≠ 32 := fun h => hne (BitVec.eq_of_toNat_eq (by simpa using h))
    rw [BitVec.toNat_add]; simp; omega

/-- From an address in ROM the advance leaves the page at most 31, or carries it to 32 past the last
page (R30). -/
theorem nextPage_le {pc : BitVec 6} {page : Byte} (h : page.toNat * 32 + pc.toNat < 1024) :
    (nextPage pc page).toNat ≤ 31 := by
  unfold nextPage
  split
  · rename_i hpc
    subst hpc
    rw [BitVec.toNat_add]; simp at h ⊢; omega
  · omega

/-- One more advance reaches at most page 32. -/
theorem nextPage_le_succ {pc : BitVec 6} {page : Byte} (h : page.toNat ≤ 31) :
    (nextPage pc page).toNat ≤ 32 := by
  unfold nextPage
  split
  · rw [BitVec.toNat_add]; simp; omega
  · omega

theorem pageOfImm_le (imm : Byte) : (pageOfImm imm).toNat ≤ 31 := by
  have := imm.isLt
  simp [pageOfImm, Nat.shiftRight_eq_div_pow]; omega

theorem offsetOfImm_toNat (imm : Byte) : (offsetOfImm imm).toNat = imm.toNat % 32 / 8 := by
  revert imm; decide

theorem offsetOfReg_toNat (v : Byte) : (offsetOfReg v).toNat = v.toNat % 32 := by
  revert v; decide

/-! ### Partial operations -/

theorem State.fetch_eq (s : State) :
    s.fetch = if s.ea < 1024 then .ok (s.rom.read s.ea) else .error (.fetchOutOfRange s.ea) := rfl

theorem State.fetchImm_eq (s : State) (w : Byte) (a : Nat) :
    s.fetchImm w a = if s.ea < 1024 then .ok (s.rom.read s.ea) else .error (.immediateOutOfRange s.ea w a) :=
  rfl

/-- Everything an operation that may raise can leave: the fault it raises, or what follows its value. -/
theorem State.orRaise_cases {α : Type} (s : State) (r : Except FaultRecord α) (k : α → State) :
    (∃ f, r = .error f ∧ s.orRaise r k = s.raise f) ∨ (∃ v, r = .ok v ∧ s.orRaise r k = k v) := by
  cases r with
  | error f => exact .inl ⟨f, rfl, rfl⟩
  | ok v => exact .inr ⟨v, rfl, rfl⟩

/-- Everything ICS and BRC can leave, with the guard of each case (R112, R114, R116, R127). -/
theorem State.conditional_cases (s : State) (c : CondCode) (w : Byte) (a : Nat) (taken : Byte → State) :
    (condOf c = none ∧ s.conditional c w a taken = s.raise (.illegalCondition w a c)) ∨
    (∃ k, condOf c = some k ∧ condHolds k s.flags = false ∧ s.conditional c w a taken = s.incPc) ∨
    (∃ k, condOf c = some k ∧ condHolds k s.flags = true ∧ ¬ s.ea < 1024 ∧
      s.conditional c w a taken = s.raise (.immediateOutOfRange s.ea w a)) ∨
    (∃ k, condOf c = some k ∧ condHolds k s.flags = true ∧ s.ea < 1024 ∧
      s.conditional c w a taken = taken (s.rom.read s.ea)) := by
  unfold State.conditional State.cond
  cases hc : condOf c with
  | none => exact .inl ⟨rfl, rfl⟩
  | some k =>
    refine .inr ?_
    cases hk : condHolds k s.flags with
    | false => exact .inl ⟨k, rfl, hk, by simp [State.orRaise, hk]⟩
    | true =>
      refine .inr ?_
      by_cases he : s.ea < 1024
      · exact .inr ⟨k, rfl, hk, he, by simp [State.orRaise, hk, State.fetchImm_eq, he]⟩
      · exact .inl ⟨k, rfl, hk, he, by simp [State.orRaise, hk, State.fetchImm_eq, he]⟩

/-- Operand 0 is the one that names no condition (R67, R112). -/
theorem condOf_eq_none (c : CondCode) : condOf c = none ↔ c = 0 := by
  revert c; decide

/-! ### Data memory -/

/-- MLD after MST (20_memory.md R42). -/
theorem State.memRead_memWrite {s : State} (h : s.ram.Pairwise (fun c d => c.1 < d.1)) (a b : RamAddr) (v : Byte) :
    (s.memWrite a v).memRead b = if b = a then v else s.memRead b := by
  simp only [State.memRead, State.memWrite_ram, ramAddress, Memory.read_write h]
  by_cases hb : b = a
  · simp [hb]
  · rw [if_neg hb, if_neg fun h => hb (BitVec.eq_of_toNat_eq h)]

end Sys2Proof.Machine
end

