-- ==== Sys2Proof/Laws/PerInstr.lean ====
section
/-! SUPPORT. The encoding of each instruction: its word is `opcode*8 + operand` (30_encoding.md R59) and
decodes to it. -/

namespace Sys2Proof.Laws.RoundTrip

/-- The word of `i` is `opcode*8 + operand`, its opcode and operand fields read back as those, and it
decodes to `i`. -/
def Statement (i : Instr) : Prop :=
  (encodeWord i).toNat = i.opcode * 8 + i.operand.toNat ∧
  (opcodeOf (encodeWord i)).toNat = i.opcode ∧ operandOf (encodeWord i) = i.operand ∧
  decodeWord (encodeWord i) = i

theorem nop (u : Ignored) : Statement (.nop u) := by
  unfold Statement; revert u; decide

theorem add (r : RegAddr) : Statement (.add r) := by
  unfold Statement; revert r; decide

theorem sub (r : RegAddr) : Statement (.sub r) := by
  unfold Statement; revert r; decide

theorem bsub (r : RegAddr) : Statement (.bsub r) := by
  unfold Statement; revert r; decide

theorem or (r : RegAddr) : Statement (.or r) := by
  unfold Statement; revert r; decide

theorem nor (r : RegAddr) : Statement (.nor r) := by
  unfold Statement; revert r; decide

theorem and (r : RegAddr) : Statement (.and r) := by
  unfold Statement; revert r; decide

theorem nand (r : RegAddr) : Statement (.nand r) := by
  unfold Statement; revert r; decide

theorem xor (r : RegAddr) : Statement (.xor r) := by
  unfold Statement; revert r; decide

theorem xnor (r : RegAddr) : Statement (.xnor r) := by
  unfold Statement; revert r; decide

theorem ldi (r : RegAddr) : Statement (.ldi r) := by
  unfold Statement; revert r; decide

theorem adr (r : RegAddr) : Statement (.adr r) := by
  unfold Statement; revert r; decide

theorem rld (r : RegAddr) : Statement (.rld r) := by
  unfold Statement; revert r; decide

theorem rst (r : RegAddr) : Statement (.rst r) := by
  unfold Statement; revert r; decide

theorem mst (a : RamAddr) : Statement (.mst a) := by
  unfold Statement; revert a; decide

theorem mld (a : RamAddr) : Statement (.mld a) := by
  unfold Statement; revert a; decide

theorem ics (c : CondCode) : Statement (.ics c) := by
  unfold Statement; revert c; decide

theorem jid (r : RegAddr) : Statement (.jid r) := by
  unfold Statement; revert r; decide

theorem brc (c : CondCode) : Statement (.brc c) := by
  unfold Statement; revert c; decide

theorem dec (u : Ignored) : Statement (.dec u) := by
  unfold Statement; revert u; decide

theorem cmp (r : RegAddr) : Statement (.cmp r) := by
  unfold Statement; revert r; decide

theorem bsr (n : ShiftCount) : Statement (.bsr n) := by
  unfold Statement; revert n; decide

theorem bsl (n : ShiftCount) : Statement (.bsl n) := by
  unfold Statement; revert n; decide

theorem pst (p : PortNum) : Statement (.pst p) := by
  unfold Statement; revert p; decide

theorem pld (p : PortNum) : Statement (.pld p) := by
  unfold Statement; revert p; decide

theorem inc (u : Ignored) : Statement (.inc u) := by
  unfold Statement; revert u; decide

theorem illegal26 (u : Ignored) : Statement (.illegal26 u) := by
  unfold Statement; revert u; decide

theorem illegal27 (u : Ignored) : Statement (.illegal27 u) := by
  unfold Statement; revert u; decide

theorem illegal28 (u : Ignored) : Statement (.illegal28 u) := by
  unfold Statement; revert u; decide

theorem illegal29 (u : Ignored) : Statement (.illegal29 u) := by
  unfold Statement; revert u; decide

theorem illegal30 (u : Ignored) : Statement (.illegal30 u) := by
  unfold Statement; revert u; decide

theorem hlt (u : Ignored) : Statement (.hlt u) := by
  unfold Statement; revert u; decide

end Sys2Proof.Laws.RoundTrip
end

