-- ==== Sys2Proof/Laws/Step.lean ====
section
/-! SUPPORT. What `exec` and `step` can do, said once: every instruction word completes in a next state,
and a step is one of two things. -/

namespace Sys2Proof.Machine

/-- The state an instruction leaves. -/
def execState (i : Instr) (s : State) : State :=
  match exec i s with
  | .next t => t
  | .fault _ => s
  | .refused _ => s

/-- Every meaning answers a next state (R74). -/
theorem exec_eq (i : Instr) (s : State) : exec i s = .next (execState i s) := by
  cases i <;> rfl

/-- What a next state of `exec` is. -/
theorem exec_next_iff {i : Instr} {s t : State} : exec i s = .next t ↔ t = execState i s := by
  rw [exec_eq]
  exact ⟨fun h => (Host.Outcome.next.inj h).symm, fun h => by rw [h]⟩

/-- The state a step from a live state leaves (R72). -/
def stepState (s : State) : State :=
  if s.ea < 1024 then execState (decodeWord (s.rom.read s.ea)) s else s.raise (.fetchOutOfRange s.ea)

/-- What a step from a live state answers. -/
theorem step_eq {s : State} (h : s.Live) : step s = .next (stepState s) := by
  unfold step stepState
  rw [h.1, h.2, State.fetch_eq]
  by_cases he : s.ea < 1024
  · rw [if_pos he, if_pos he]; exact exec_eq _ _
  · rw [if_neg he, if_neg he]; rfl

/-- A next state comes from a live state. -/
theorem live_of_step {s t : State} (h : step s = .next t) : s.Live := by
  unfold step at h
  unfold State.Live
  cases hh : s.halted <;> cases hf : s.fault <;> simp_all

/-- A step that answers a next state starts in a live state, and either its fetch raised or it executed
the word fetched (R72, R73, R75). -/
theorem step_cases {s t : State} (h : step s = .next t) :
    s.Live ∧ ((¬ s.ea < 1024 ∧ t = s.raise (.fetchOutOfRange s.ea)) ∨
      (s.ea < 1024 ∧ t = execState (decodeWord (s.rom.read s.ea)) s)) := by
  have hl := live_of_step h
  rw [step_eq hl] at h
  have ht := (Host.Outcome.next.inj h).symm
  unfold stepState at ht
  split at ht
  · exact ⟨hl, .inr ⟨‹_›, ht⟩⟩
  · exact ⟨hl, .inl ⟨‹_›, ht⟩⟩

/-- Everything LDI can leave (R105). -/
theorem execLdi_cases (r : RegAddr) (s : State) :
    (¬ s.incPc.ea < 1024 ∧ execState (.ldi r) s =
      s.incPc.raise (.immediateOutOfRange s.incPc.ea (encodeWord (.ldi r)) s.ea)) ∨
    (s.incPc.ea < 1024 ∧
      execState (.ldi r) s = (s.incPc.writeReg r (s.rom.read s.incPc.ea)).incPc) := by
  by_cases he : s.incPc.ea < 1024
  · refine .inr ⟨he, ?_⟩
    show State.orRaise _ _ _ = _
    rw [State.fetchImm_eq, if_pos he]; rfl
  · refine .inl ⟨he, ?_⟩
    show State.orRaise _ _ _ = _
    rw [State.fetchImm_eq, if_neg he]; rfl

/-- Everything ICS can leave, with the guard of each case (R114, R127). -/
theorem execIcs_cases (c : CondCode) (s : State) :
    (condOf c = none ∧
      execState (.ics c) s = s.incPc.raise (.illegalCondition (encodeWord (.ics c)) s.ea c)) ∨
    (∃ k, condOf c = some k ∧ condHolds k s.flags = false ∧ execState (.ics c) s = s.incPc.incPc) ∨
    (∃ k, condOf c = some k ∧ condHolds k s.flags = true ∧ ¬ s.incPc.ea < 1024 ∧
      execState (.ics c) s =
        s.incPc.raise (.immediateOutOfRange s.incPc.ea (encodeWord (.ics c)) s.ea)) ∨
    (∃ k, condOf c = some k ∧ condHolds k s.flags = true ∧ s.incPc.ea < 1024 ∧
      execState (.ics c) s = s.incPc.setPage (pageOfImm (s.rom.read s.incPc.ea))) :=
  State.conditional_cases s.incPc c _ _ _

/-- Everything BRC can leave, with the guard of each case (R116, R127). -/
theorem execBrc_cases (c : CondCode) (s : State) :
    (condOf c = none ∧
      execState (.brc c) s = s.incPc.raise (.illegalCondition (encodeWord (.brc c)) s.ea c)) ∨
    (∃ k, condOf c = some k ∧ condHolds k s.flags = false ∧ execState (.brc c) s = s.incPc.incPc) ∨
    (∃ k, condOf c = some k ∧ condHolds k s.flags = true ∧ ¬ s.incPc.ea < 1024 ∧
      execState (.brc c) s =
        s.incPc.raise (.immediateOutOfRange s.incPc.ea (encodeWord (.brc c)) s.ea)) ∨
    (∃ k, condOf c = some k ∧ condHolds k s.flags = true ∧ s.incPc.ea < 1024 ∧
      execState (.brc c) s = s.incPc.setPc (offsetOfImm (s.rom.read s.incPc.ea))) :=
  State.conditional_cases s.incPc c _ _ _

/-- LDI as one expression (R105). -/
theorem execLdi_eq (r : RegAddr) (s : State) :
    execState (.ldi r) s =
      if s.incPc.ea < 1024 then (s.incPc.writeReg r (s.rom.read s.incPc.ea)).incPc
      else s.incPc.raise (.immediateOutOfRange s.incPc.ea (encodeWord (.ldi r)) s.ea) := by
  rcases execLdi_cases r s with ⟨h, e⟩ | ⟨h, e⟩
  · rw [e, if_neg h]
  · rw [e, if_pos h]

/-- ICS as one expression (R114). -/
theorem execIcs_eq (c : CondCode) (s : State) :
    execState (.ics c) s =
      match condOf c with
      | none => s.incPc.raise (.illegalCondition (encodeWord (.ics c)) s.ea c)
      | some k =>
        if condHolds k s.flags then
          if s.incPc.ea < 1024 then s.incPc.setPage (pageOfImm (s.rom.read s.incPc.ea))
          else s.incPc.raise (.immediateOutOfRange s.incPc.ea (encodeWord (.ics c)) s.ea)
        else s.incPc.incPc := by
  rcases execIcs_cases c s with ⟨h, e⟩ | ⟨k, h, hk, e⟩ | ⟨k, h, hk, he, e⟩ | ⟨k, h, hk, he, e⟩ <;>
    simp [*]

/-- BRC as one expression (R116). -/
theorem execBrc_eq (c : CondCode) (s : State) :
    execState (.brc c) s =
      match condOf c with
      | none => s.incPc.raise (.illegalCondition (encodeWord (.brc c)) s.ea c)
      | some k =>
        if condHolds k s.flags then
          if s.incPc.ea < 1024 then s.incPc.setPc (offsetOfImm (s.rom.read s.incPc.ea))
          else s.incPc.raise (.immediateOutOfRange s.incPc.ea (encodeWord (.brc c)) s.ea)
        else s.incPc.incPc := by
  rcases execBrc_cases c s with ⟨h, e⟩ | ⟨k, h, hk, e⟩ | ⟨k, h, hk, he, e⟩ | ⟨k, h, hk, he, e⟩ <;>
    simp [*]

end Sys2Proof.Machine
end

