-- ==== Sys2Proof/Tests/Slice0.lean ====
section
/-! SUPPORT. The model's own tests: ill-formed terms that the checks refuse, words written out from the
encoding table (30_encoding.md R65), one step on a small state with the result the spec's vectors give
(95_test_vectors.md, "L2.x" and "L1.x" below), and a concrete state and operands for the hypotheses of
every statement. -/

namespace Sys2Proof.Tests

open Sys2Proof.Machine Sys2Proof.Claims

/-! ### Helpers -/

/-- Reset with `x[r] = v`, an accumulator and flags. -/
def st (r : RegAddr) (v acc : Byte) (zero msb carry : Bool) : State :=
  ({ State.reset with acc := acc, flags := ⟨zero, msb, carry⟩ } : State).writeReg r v

/-- Reset at a page and offset, with two ROM bytes placed. -/
def at_ (page : Byte) (pc : BitVec 6) (a : Nat) (v : Byte) (b : Nat) (u : Byte) : State :=
  (({ State.reset with page := page, pc := pc } : State).placeRom b u).placeRom a v

/-- The next state of an outcome, if it is one. -/
def next? (o : Result) : Option State :=
  match o with
  | .next t => some t
  | .fault _ => none
  | .refused _ => none

/-- Accumulator and flags after an instruction. -/
def accFlags (i : Instr) (s : State) : Option (Byte × Flags) := (next? (exec i s)).map fun t => (t.acc, t.flags)

/-- Program counter and page after a step. -/
def pcPage (s : State) : Option (Nat × Nat) := (next? (step s)).map fun t => (t.pc.toNat, t.page.toNat)

/-- Fault record after a step. -/
def faultOf (s : State) : Option FaultRecord := (next? (step s)).bind fun t => t.fault

/-! ### Ill-formed terms are refused -/

theorem test_ill_formed_illegal_opcode : (Instr.illegal28 3).wellFormed = false := by decide
theorem test_ill_formed_ics_condition_zero : (Instr.ics 0).wellFormed = false := by decide
theorem test_ill_formed_brc_condition_zero : (Instr.brc 0).wellFormed = false := by decide
theorem test_ill_formed_missing_immediate : (ImageInstr.mk (.ldi 1) none).wellFormed = false := by decide
theorem test_ill_formed_spare_immediate : (ImageInstr.mk (.add 1) (some 3)).wellFormed = false := by decide
theorem test_well_formed_layouts :
    (ImageInstr.mk (.ldi 1) (some 3)).wellFormed = true ∧ (ImageInstr.mk (.add 1) none).wellFormed = true := by
  decide

/-- R68: 214 words with a defined effect, 2 with the fatal condition, 40 illegal. -/
theorem test_word_classes :
    (List.range 256).countP (fun n => (decodeWord (BitVec.ofNat 8 n)).wordClass == .defined) = 214 ∧
    (List.range 256).countP (fun n => (decodeWord (BitVec.ofNat 8 n)).wordClass == .fatalCondition) = 2 ∧
    (List.range 256).countP (fun n => (decodeWord (BitVec.ofNat 8 n)).wordClass == .illegalOpcode) = 40 := by
  decide +kernel

/-! ### Every constructor's word, written out from R65 -/

theorem test_decode_nop : decodeWord 0b00000101 = .nop 0b101 := by decide
theorem test_decode_add : decodeWord 0b00001001 = .add 0b001 := by decide
theorem test_decode_sub : decodeWord 0b00010110 = .sub 0b110 := by decide
theorem test_decode_bsub : decodeWord 0b00011111 = .bsub 0b111 := by decide
theorem test_decode_or : decodeWord 0b00100010 = .or 0b010 := by decide
theorem test_decode_nor : decodeWord 0b00101011 = .nor 0b011 := by decide
theorem test_decode_and : decodeWord 0b00110100 = .and 0b100 := by decide
theorem test_decode_nand : decodeWord 0b00111001 = .nand 0b001 := by decide
theorem test_decode_xor : decodeWord 0b01000101 = .xor 0b101 := by decide
theorem test_decode_xnor : decodeWord 0b01001110 = .xnor 0b110 := by decide
theorem test_decode_ldi : decodeWord 0b01010011 = .ldi 0b011 := by decide
theorem test_decode_adr : decodeWord 0b01011010 = .adr 0b010 := by decide
theorem test_decode_rld : decodeWord 0b01100100 = .rld 0b100 := by decide
theorem test_decode_rst : decodeWord 0b01101101 = .rst 0b101 := by decide
theorem test_decode_mst : decodeWord 0b01110011 = .mst 0b011 := by decide
theorem test_decode_mld : decodeWord 0b01111110 = .mld 0b110 := by decide
theorem test_decode_ics : decodeWord 0b10000111 = .ics 0b111 := by decide
theorem test_decode_jid : decodeWord 0b10001011 = .jid 0b011 := by decide
theorem test_decode_brc : decodeWord 0b10010010 = .brc 0b010 := by decide
theorem test_decode_dec : decodeWord 0b10011101 = .dec 0b101 := by decide
theorem test_decode_cmp : decodeWord 0b10100001 = .cmp 0b001 := by decide
theorem test_decode_bsr : decodeWord 0b10101100 = .bsr 0b100 := by decide
theorem test_decode_bsl : decodeWord 0b10110011 = .bsl 0b011 := by decide
theorem test_decode_pst : decodeWord 0b10111111 = .pst 0b111 := by decide
theorem test_decode_pld : decodeWord 0b11000101 = .pld 0b101 := by decide
theorem test_decode_inc : decodeWord 0b11001011 = .inc 0b011 := by decide
theorem test_decode_illegal26 : decodeWord 0b11010000 = .illegal26 0b000 := by decide
theorem test_decode_illegal27 : decodeWord 0b11011000 = .illegal27 0b000 := by decide
theorem test_decode_illegal28 : decodeWord 0b11100101 = .illegal28 0b101 := by decide
theorem test_decode_illegal29 : decodeWord 0b11101011 = .illegal29 0b011 := by decide
theorem test_decode_illegal30 : decodeWord 0b11110111 = .illegal30 0b111 := by decide
theorem test_decode_hlt : decodeWord 0b11111110 = .hlt 0b110 := by decide

/-- R71: `LDI r3, 0x45` is 0x53 0x45, `ICS AL, 0x08` is 0x87 0x08; the byte after is left. -/
theorem test_decode_bytes :
    decodeBytes [0x53, 0x45, 0x0A] = .ok (⟨.ldi 3, some 0x45⟩, [0x0A]) ∧
    encodeBytes ⟨.ics 7, some 0x08⟩ = [0x87, 0x08] := ⟨rfl, rfl⟩

theorem test_decode_bytes_rejects : decodeBytes [] = .error .noWord ∧ decodeBytes [0x92] = .error .noImmediate :=
  ⟨rfl, rfl⟩

/-- The table's numbering: the word in bits 7 to 0, the immediate above it. -/
theorem test_decode_table_word :
    decodeTableWord 8 0x0A = some (.add 2) ∧ decodeTableWord 16 0x0350 = some (.ldi 0) ∧
    decodeTableWord 8 0xD8 = some (.illegal27 0) := by decide

/-- The word placed for the first step after reset is the one executed. -/
theorem test_with_fetch_word :
    pcPage (State.reset.withFetchWord 16 0x0351) = some (2, 0) ∧
    faultOf (State.reset.withFetchWord 8 0xD8) = some (.illegalOpcode 0xD8 0) := by decide

/-! ### Arithmetic, logic, shifts: the flags before are all set -/

/-- L2.A1. -/
theorem test_add_wraps : accFlags (.add 2) (st 2 100 200 true true true) = some (44, ⟨false, false, true⟩) := by
  decide

/-- L2.A6. -/
theorem test_add_zero_register : accFlags (.add 0) (st 1 9 128 true true true) = some (128, ⟨false, true, false⟩) := by
  decide

/-- L2.S1: no wrap, yet carry is set. -/
theorem test_sub_quirk : accFlags (.sub 1) (st 1 3 5 true true true) = some (2, ⟨false, false, true⟩) := by
  decide

/-- L2.S2. -/
theorem test_sub_wraps_without_carry : accFlags (.sub 1) (st 1 5 3 true true true) = some (254, ⟨false, true, false⟩) := by
  decide

/-- L2.S9. -/
theorem test_bsub_wraps : accFlags (.bsub 1) (st 1 3 5 true true true) = some (254, ⟨false, true, true⟩) := by
  decide

/-- L2.S13. -/
theorem test_bsub_negates : accFlags (.bsub 0) (st 1 3 128 true true true) = some (128, ⟨false, true, true⟩) := by
  decide

/-- L2.L1. -/
theorem test_or : accFlags (.or 1) (st 1 0x0F 0xF0 true true true) = some (0xFF, ⟨false, true, false⟩) := by
  decide

/-- L2.L6. -/
theorem test_nor : accFlags (.nor 1) (st 1 0x00 0x7F true true true) = some (0x80, ⟨false, true, false⟩) := by
  decide

/-- L2.L7. -/
theorem test_and : accFlags (.and 1) (st 1 0x3C 0xF0 true true true) = some (0x30, ⟨false, false, false⟩) := by
  decide

/-- L2.L11. -/
theorem test_nand : accFlags (.nand 1) (st 1 0xFF 0xFF true true true) = some (0x00, ⟨true, false, false⟩) := by
  decide

/-- L2.L13. -/
theorem test_xor : accFlags (.xor 1) (st 1 0xFF 0xAA true true true) = some (0x55, ⟨false, false, false⟩) := by
  decide

/-- L2.L18. -/
theorem test_xnor : accFlags (.xnor 0) (st 1 9 0x0F true true true) = some (0xF0, ⟨false, true, false⟩) := by
  decide

/-- L2.D2. -/
theorem test_dec_wraps : accFlags (.dec 0) (st 1 9 0 true true true) = some (255, ⟨false, true, true⟩) := by
  decide

/-- L2.D5. -/
theorem test_dec_ignores_operand : accFlags (.dec 5) (st 5 99 3 true true true) = some (2, ⟨false, false, false⟩) := by
  decide

/-- L2.D7. -/
theorem test_inc_wraps : accFlags (.inc 0) (st 1 9 255 true true true) = some (0, ⟨true, false, true⟩) := by
  decide

/-- L2.D9. -/
theorem test_inc_ignores_operand : accFlags (.inc 3) (st 3 77 9 true true true) = some (10, ⟨false, false, false⟩) := by
  decide

/-- L2.K1. -/
theorem test_cmp_less : accFlags (.cmp 1) (st 1 5 7 true true true) = some (7, ⟨false, true, true⟩) := by
  decide

/-- L2.K3. -/
theorem test_cmp_sign_is_not_less : accFlags (.cmp 1) (st 1 200 10 true true true) = some (10, ⟨false, true, false⟩) := by
  decide

/-- L2.H1. -/
theorem test_bsr_one : accFlags (.bsr 1) (st 1 0 0x81 true true true) = some (0x40, ⟨false, false, false⟩) := by
  decide

/-- L2.H3. -/
theorem test_bsr_seven : accFlags (.bsr 7) (st 1 0 0x80 true true true) = some (0x01, ⟨false, false, false⟩) := by
  decide

/-- L2.H8. -/
theorem test_bsl_seven : accFlags (.bsl 7) (st 1 0 0x01 true true true) = some (0x80, ⟨false, true, false⟩) := by
  decide

/-- L2.H10. -/
theorem test_bsl_four : accFlags (.bsl 4) (st 1 0 0x0F true true true) = some (0xF0, ⟨false, true, false⟩) := by
  decide

/-- L2.AR1. -/
theorem test_adr :
    (next? (exec (.adr 3) (st 3 250 10 true true true))).map (fun t => (t.readReg 3, t.acc, t.flags)) =
      some (4, 10, ⟨false, false, true⟩) := by decide

/-- L2.AR4: the write is discarded, the flags are set. -/
theorem test_adr_zero_register :
    (next? (exec (.adr 0) (st 1 7 0x90 true true true))).map (fun t => (t.readReg 0, t.readReg 1, t.flags)) =
      some (0, 7, ⟨false, true, false⟩) := by decide

/-! ### Data movement -/

/-- L2.M4, first step: an LDI at offset 31 reads its immediate at the next page's offset 0. -/
theorem test_ldi_at_page_end :
    (next? (step (at_ 0 31 31 0x55 32 0x42))).map (fun t => (t.readReg 5, t.pc.toNat, t.page.toNat)) =
      some (0x42, 0, 1) := by decide

/-- L2.M5: an LDI fetched with `pc = 32` reads its own byte. -/
theorem test_ldi_reads_itself :
    (next? (step (at_ 0 32 32 0x55 33 0x11))).map (fun t => (t.readReg 5, t.pc.toNat, t.page.toNat)) =
      some (0x55, 1, 1) := by decide

/-- L2.M7. -/
theorem test_rld_zero_register : accFlags (.rld 0) (st 1 9 5 false true true) = some (0, ⟨false, true, true⟩) := by
  decide

/-- L2.M9, and L2.M8 for address 0. -/
theorem test_rst :
    (next? (exec (.rst 5) (st 1 2 9 true false true))).map (fun t => (t.readReg 5, t.readReg 1)) = some (9, 2) ∧
    (next? (exec (.rst 0) (st 1 2 9 true false true))).map (fun t => (t.readReg 0, t.readReg 1)) = some (0, 2) := by
  decide

/-- L2.M10, L1.12. -/
theorem test_mst :
    (next? (exec (.mst 3) (st 1 2 44 true false true))).map (fun t => t.ram) = some [(3, 44)] ∧
    (next? (exec (.mst 3) { st 1 2 0 true false true with ram := [(3, 44)] })).map (fun t => t.ram) = some [] := by
  decide

/-- L2.M10. -/
theorem test_mld : accFlags (.mld 3) { st 1 2 0 true false true with ram := [(3, 44)] } = some (44, ⟨true, false, true⟩) := by
  decide

/-- L2.M14: the byte is appended. -/
theorem test_pst_console :
    (next? (exec (.pst 7) { st 1 2 3 true false true with console := [9] })).map (fun t => t.console) = some [9, 3] := by
  decide

/-- L2.M15. -/
theorem test_pst_dropped : (next? (exec (.pst 0) (st 1 2 3 true false true))).map (fun t => t.console) = some [] := by
  decide

/-- L2.M11, L2.M12: port 7 reads 0 too, and no flag changes. -/
theorem test_pld : accFlags (.pld 5) (st 1 2 200 false false true) = some (0, ⟨false, false, true⟩) ∧
    accFlags (.pld 7) { st 1 2 200 false false true with console := [9] } = some (0, ⟨false, false, true⟩) := by
  decide

/-! ### Control -/

/-- L2.N1. -/
theorem test_nop : pcPage (at_ 0 5 5 0x07 6 0) = some (6, 0) := by decide

/-- L2.C6: a taken ICS at offset 31 leaves `pc = 32` on the new page. -/
theorem test_ics_taken_at_page_end : pcPage (at_ 0 31 31 0x87 32 0x40) = some (32, 8) := by decide

/-- L2.C7, L2.C10: not taken; at address 1023 there is no fault, and the next step faults. -/
theorem test_ics_not_taken :
    pcPage (at_ 0 31 31 0x85 32 0x40) = some (0, 1) ∧
    pcPage { at_ 31 31 1023 0x86 0 0 with flags := ⟨false, false, true⟩ } = some (0, 32) := by decide

/-- L2.J1. -/
theorem test_jid : pcPage ((at_ 1 9 41 0x8B 0 0).writeReg 3 0x45) = some (5, 1) := by decide

/-- L2.J3: the page is the one after the advance. -/
theorem test_jid_at_32 : pcPage ((at_ 0 32 32 0x8F 0 0).writeReg 7 0xFF) = some (31, 1) := by decide

/-- L2.B15, L2.B17: bits 7 to 5 and 2 to 0 ignored; at offset 31 the page stays. -/
theorem test_brc_taken :
    pcPage (at_ 0 6 6 0x97 7 0xE7) = some (0, 0) ∧ pcPage (at_ 0 31 31 0x97 32 0x08) = some (1, 0) := by decide

/-- L2.B18: not taken at offset 31. -/
theorem test_brc_not_taken :
    pcPage { at_ 0 31 31 0x92 32 0x08 with flags := ⟨true, false, false⟩ } = some (0, 1) := by decide

/-- L2.B1 to L2.B13: each condition where it holds and where it does not. -/
theorem test_conditions :
    condHolds .z ⟨true, false, false⟩ = true ∧ condHolds .z ⟨false, true, true⟩ = false ∧
    condHolds .nz ⟨false, false, false⟩ = true ∧ condHolds .nz ⟨true, false, false⟩ = false ∧
    condHolds .m ⟨false, true, false⟩ = true ∧ condHolds .nm ⟨false, true, false⟩ = false ∧
    condHolds .cs ⟨false, false, true⟩ = true ∧ condHolds .cc ⟨false, false, true⟩ = false ∧
    condHolds .al ⟨true, true, true⟩ = true ∧ condOf 0 = none ∧ condOf 5 = some .cs := by decide

/-- L2.N3, L2.F8: HLT sets `halted` after the advance, and no step follows. -/
theorem test_hlt :
    (next? (step (at_ 0 31 31 0xFF 0 0))).map (fun t => (t.halted, t.pc.toNat, (next? (step t)).isSome)) =
      some (true, 32, false) := by decide

/-! ### Faults -/

/-- L2.F1, L2.F3: the record names the word and the address before the advance. -/
theorem test_illegal_first_and_last :
    faultOf (at_ 0 0 0 0xD8 1 0) = some (.illegalOpcode 0xD8 0) ∧
    faultOf (at_ 0 7 7 0xD0 8 0) = some (.illegalOpcode 0xD0 7) ∧
    faultOf (at_ 0 0 0 0xF7 1 0) = some (.illegalOpcode 0xF7 0) := by decide

/-- 30_encoding.md R66: opcodes 28 and 29. -/
theorem test_illegal_middle :
    faultOf (at_ 0 2 2 0xE5 3 0) = some (.illegalOpcode 0xE5 2) ∧
    faultOf (at_ 0 2 2 0xE8 3 0) = some (.illegalOpcode 0xE8 2) := by decide

/-- L2.C11, L2.C12, L2.B21: the condition is checked before the immediate's address. -/
theorem test_illegal_condition :
    faultOf (at_ 0 0 0 0x80 1 0x08) = some (.illegalCondition 0x80 0 0) ∧
    faultOf (at_ 31 31 1023 0x80 0 0) = some (.illegalCondition 0x80 1023 0) ∧
    faultOf (at_ 0 0 0 0x90 1 0x08) = some (.illegalCondition 0x90 0 0) := by decide

/-- L2.C9, L2.B20, and 42_data_movement.md R105: LDI at 1023 leaves `pc = 32` and its register. -/
theorem test_immediate_out_of_range :
    faultOf (at_ 31 31 1023 0x87 0 0) = some (.immediateOutOfRange 1024 0x87 1023) ∧
    faultOf (at_ 31 31 1023 0x97 0 0) = some (.immediateOutOfRange 1024 0x97 1023) ∧
    faultOf (at_ 31 31 1023 0x51 0 0) = some (.immediateOutOfRange 1024 0x51 1023) ∧
    pcPage (at_ 31 31 1023 0x51 0 0) = some (32, 31) := by decide

/-- L2.F4, L2.F5. -/
theorem test_fetch_out_of_range :
    faultOf (at_ 32 0 0 0 0 0) = some (.fetchOutOfRange 1024) ∧
    faultOf (at_ 31 32 0 0 0 0) = some (.fetchOutOfRange 1024) ∧ pcPage (at_ 31 32 0 0 0 0) = some (32, 31) := by
  decide

/-- L2.F7, L1.10. -/
theorem test_advance_wraps_page :
    ({ State.reset with pc := 32, page := 255 } : State).incPc = State.reset ∧
    nextPc 31 = 32 ∧ nextPage 31 4 = 4 ∧ nextPage 32 4 = 5 := by decide

/-- R132. -/
theorem test_run_end :
    State.reset.runEnd = .running ∧ State.reset.halt.runEnd = .normal ∧
    (State.reset.raise (.fetchOutOfRange 1024)).runEnd = .abnormal := by decide

/-- R125. -/
theorem test_fault_codes :
    [FaultRecord.illegalOpcode 0 0, .illegalCondition 0 0 0, .fetchOutOfRange 0, .immediateOutOfRange 0 0 0].map
      FaultRecord.code = [1, 2, 3, 4] := by decide

/-! ### The host's side -/

/-- L1.8: a comment line, then one token. -/
theorem test_image_of_text :
    imageOfText ['/', ' ', '1', '1', '\n', '0', '0', '0', '0', '0', '1', '0', '1'] = [0x05] := by decide

/-- R145: a `/` that is not the line's first character makes no comment. -/
theorem test_slash_inside_a_line :
    lineBytes [' ', '/', ' ', '1', '1', '\t', '0', '1', '/', ' ', ' ', '1'] = [3, 1] ∧ lineBytes ['/', ' ', '1', '1'] = [] := by
  decide

/-- R146: leading zeros count, a token of another digit, an empty one and a value above 255 do not. -/
theorem test_tokens :
    tokenValue ['0', '0', '0', '0', '0', '0', '0', '0', '0', '1', '1'] = some 3 ∧ tokenValue ['1', '2'] = none ∧
    tokenValue [] = none ∧ tokenValue ['1', '0', '0', '0', '0', '0', '0', '0', '0'] = none := by decide

/-- L1.5 and R136. -/
theorem test_flush :
    { State.reset with console := [1, 2] }.flush = ([1, 2], State.reset) ∧
    spellAll [1, 200, 0] = ['1', '\n', '2', '0', '0', '\n', '0', '\n'] := by decide

/-- R147: one round of the driver emits what the step appended. -/
theorem test_drive :
    (drive 1 { at_ 0 0 0 0xBF 1 0 with acc := 3 }).1 = [3] ∧
    (runSteps 1 { at_ 0 0 0 0xBF 1 0 with acc := 3 }).console = [3] := by decide

/-- R143, R149, N11: no load of a loaded or of a stepped core, in whatever state. -/
theorem test_second_load_refused :
    (Session.constructed.calls [.flush, .load [0xF8], .step]).isSome = true ∧
    Session.constructed.calls [.load [0x00], .load [0xF8]] = none ∧
    Session.constructed.calls [.step, .load [0xF8]] = none ∧
    Session.constructed.calls [.load [0xF8], .step, .load [0xF8]] = none := by decide

/-- R149: the host does not step a halted core, and may flush it. -/
theorem test_no_step_after_halt :
    Session.constructed.calls [.load [0xF8], .step, .step] = none ∧
    (Session.constructed.calls [.load [0xF8], .step, .flush]).map (·.core.halted) = some true := by decide

/-- R69's examples. -/
theorem test_assembly :
    asmText ⟨.inc 0, none⟩ = "INC" ∧ asmText ⟨.add 2, none⟩ = "ADD r2" ∧ asmText ⟨.pst 7, none⟩ = "PST 7" ∧
    asmText ⟨.brc 2, some 0x10⟩ = "BRC NZ, 0x10" ∧ asmText ⟨.illegal27 0, none⟩ = ".byte 0xD8" := by decide

/-- R70's expansions as words. -/
theorem test_idioms :
    encodeWord idiomClearAcc = 0x60 ∧ encodeWord idiomTestAcc = 0x08 ∧ encodeWord (idiomJump 3) = 0x8B ∧
    encodeBytes (idiomPageSwitch 0x08) = [0x87, 0x08] := by decide

/-! ### Witnesses: states and operands that meet the hypotheses of the statements -/

theorem witness_ResetAndLoadLeaveSpecValues :
    ([0xC8, 0xBF] : List Byte).length ≤ 1024 ∧ (List.replicate 1024 (7 : Byte)).length ≤ 1024 :=
  ⟨by decide, by rw [List.length_replicate]⟩

theorem witness_LoadWritesRomOnlyOrRefuses :
    State.reset.MemoryInv ∧ ([] : List Byte).length ≤ 1024 ∧ (List.replicate 1024 (7 : Byte)).length ≤ 1024 ∧
    1024 < (List.replicate 1025 (7 : Byte)).length := by
  refine ⟨⟨Memory.wf_nil _, Memory.wf_nil _⟩, by decide, ?_, ?_⟩ <;> rw [List.length_replicate]
  decide

theorem witness_WritesToZeroRegisterAreDropped : (at_ 31 30 1022 0x50 1023 9).incPc.ea < 1024 := by decide

theorem witness_AdvanceWrapsAfterThirtyTwo :
    (at_ 3 32 0 0 0 0).pc.toNat = 32 ∧ (at_ 3 31 0 0 0 0).pc.toNat ≤ 32 ∧ (at_ 3 31 0 0 0 0).pc.toNat ≠ 32 := by
  decide

theorem witness_AddressLeavesRomPastPage31 :
    (at_ 31 31 0 0 0 0).ea < 1024 ∧ 1024 ≤ (at_ 31 32 0 0 0 0).ea ∧ (at_ 31 32 0 0 0 0).pc.toNat ≤ 32 ∧
    1024 ≤ (at_ 32 0 0 0 0 0).ea := by decide

theorem witness_PageStartIsFetchedTwice :
    (at_ 30 32 992 0x53 993 0).pc = 32 ∧ (at_ 30 32 992 0x53 993 0).page.toNat < 255 ∧
    (at_ 30 32 992 0x53 993 0).ea < 1024 := by decide

theorem witness_LdiLoadsFetchedImmediate :
    (at_ 31 30 1022 0x51 1023 9).incPc.ea < 1024 ∧ 1024 ≤ (at_ 31 31 1023 0x51 0 0).incPc.ea := by decide

theorem witness_MstStoresAccInRam : ({ State.reset with ram := [(3, 44)] } : State).MemoryInv := by
  unfold State.MemoryInv; decide

theorem witness_TakenIcsSwitchesPage :
    condOf 1 = some .z ∧ condHolds .z ({ at_ 31 30 1022 0x81 1023 9 with flags := ⟨true, false, false⟩ } : State).flags = true ∧
    ({ at_ 31 30 1022 0x81 1023 9 with flags := ⟨true, false, false⟩ } : State).incPc.ea < 1024 ∧
    condOf 7 = some .al ∧ condHolds .al (at_ 31 31 1023 0x87 0 0).flags = true ∧
    1024 ≤ (at_ 31 31 1023 0x87 0 0).incPc.ea := by decide

theorem witness_TakenBrcSetsPcFromTwoBits :
    condOf 2 = some .nz ∧ condHolds .nz (at_ 31 30 1022 0x92 1023 9).flags = true ∧
    (at_ 31 30 1022 0x92 1023 9).incPc.ea < 1024 ∧
    condHolds .nz (at_ 31 31 1023 0x92 0 0).flags = true ∧ 1024 ≤ (at_ 31 31 1023 0x92 0 0).incPc.ea := by decide

theorem witness_UntakenIcsAndBrcSkipTheImmediate :
    condOf 5 = some .cs ∧ condHolds .cs (at_ 31 31 1023 0x85 0 0).flags = false := by decide

theorem witness_IllegalBytesEndTheRun :
    (at_ 0 0 0 0xD0 1 0).Live ∧ wordAt (at_ 0 0 0 0xD0 1 0) = some 0xD0 ∧
    (at_ 31 31 1023 0xF7 0 0).Live ∧ wordAt (at_ 31 31 1023 0xF7 0 0) = some 0xF7 := by
  unfold State.Live; decide

theorem witness_OnlyConditionZeroIsAFatalOperand :
    (Instr.ics 1).wordClass = .defined ∧ ∃ t, exec (.ics 1) State.reset = .next t := ⟨by decide, _, rfl⟩

theorem witness_FetchBeyondRomRaisesBeforeAnyChange :
    (at_ 32 0 0 0 0 0).Live ∧ 1024 ≤ (at_ 32 0 0 0 0 0).ea ∧ (at_ 31 32 0 0 0 0).Live ∧
    1024 ≤ (at_ 31 32 0 0 0 0).ea := by unfold State.Live; decide

theorem witness_NoStepAfterHaltOrFault :
    State.reset.halt.halted = true ∧ (State.reset.raise (.fetchOutOfRange 1024)).halted = false ∧
    (State.reset.raise (.fetchOutOfRange 1024)).fault ≠ none := by decide

theorem witness_DecodeOfEncodeGivesBack :
    (ImageInstr.mk (.ldi 3) (some 0x45)).immFits = true ∧ (ImageInstr.mk (.hlt 0) none).immFits = true := by decide

theorem witness_EncodeOfDecodeGivesBack :
    decodeBytes [0x97, 0x18, 0x00] = .ok (⟨.brc 7, some 0x18⟩, [0x00]) ∧ decodeBytes [] = .error .noWord ∧
    decodeBytes [0x80] = .error .noImmediate := ⟨rfl, rfl, rfl⟩

theorem witness_StepExecutesTheDecodedWord :
    (at_ 31 31 1023 0x0A 0 0).Live ∧ (at_ 31 31 1023 0x0A 0 0).ea < 1024 ∧
    decodeWord ((at_ 31 31 1023 0x0A 0 0).rom.read (at_ 31 31 1023 0x0A 0 0).ea) = .add 2 := by
  unfold State.Live; decide

theorem witness_EveryLiveStepCompletesOrRaises : State.reset.Live := ⟨rfl, rfl⟩

theorem witness_NoStepWritesRom : ∃ t, step (at_ 0 0 0 0x77 1 0) = .next t := ⟨_, rfl⟩

theorem witness_StepKeepsPcAndPageInRange :
    (at_ 31 31 1023 0x81 0 0).AddressInv ∧ ∃ t, step (at_ 31 31 1023 0x81 0 0) = .next t :=
  ⟨⟨by decide, by decide⟩, _, rfl⟩

theorem witness_StepKeepsMemoryCanonical :
    (at_ 0 0 0 0x77 1 0).MemoryInv ∧ (at_ 0 0 0 0x77 1 0).HighRamInv ∧ ∃ t, step (at_ 0 0 0 0x77 1 0) = .next t :=
  ⟨by unfold State.MemoryInv; decide, fun _ _ => rfl, _, rfl⟩

theorem witness_EveryStepKeepsEndsOfRunApart : ∃ t, step (at_ 0 0 0 0xF8 1 0) = .next t := ⟨_, rfl⟩

theorem witness_HaltedIsSetByHltAlone :
    (∃ t, step (at_ 0 0 0 0xF8 1 0) = .next t) ∧ wordAt (at_ 0 0 0 0xF8 1 0) = some 0xF8 ∧
    State.reset.halt.halted = true := ⟨⟨_, rfl⟩, by decide, rfl⟩

theorem witness_ConsoleIsAppendedAndNeverRead :
    (∃ t, step (at_ 0 0 0 0xBF 1 0) = .next t) ∧ consoleOutput { at_ 0 0 0 0xBF 1 0 with acc := 3 } = [3] :=
  ⟨⟨_, rfl⟩, by decide⟩

theorem witness_RamIsReachedByMstAndMldAlone :
    (∃ t, exec (.add 1) State.reset = .next t) ∧ (∀ a, Instr.add 1 ≠ .mst a) ∧ (∀ a, Instr.add 1 ≠ .mld a) :=
  ⟨⟨_, rfl⟩, by simp, by simp⟩

theorem witness_FlagsAreReadByConditionsAlone :
    readsFlags (.add 1) = false ∧ ∃ t, exec (.add 1) State.reset = .next t := ⟨rfl, _, rfl⟩

theorem witness_OnlyListedInstructionsWrite :
    (∃ t, exec (.rst 3) State.reset = .next t) ∧ writesFlags (.rst 3) = false ∧ writesAcc (.rst 3) = false ∧
    writesRegs (.add 1) = false := ⟨⟨_, rfl⟩, rfl, rfl, rfl⟩

theorem witness_OnlyListedInstructionsRead :
    ignoresAcc (.jid 1) = true ∧ (∃ t, exec (.jid 1) State.reset = .next t) ∧ readsRegs (.inc 0) = false ∧
    ({ State.reset with x := (State.reset.writeReg 2 9).x } : State).readReg 1 = State.reset.readReg 1 :=
  ⟨rfl, ⟨_, rfl⟩, rfl, by decide⟩

theorem witness_DriverEmitsTheRunsOutput : ({ at_ 0 0 0 0xBF 1 0xBF with acc := 3 } : State).console = [] := rfl

/-- A line of two literals with a word that is none between them, and a comment. -/
theorem witness_CommentLinesAddNoByte :
    BlankFree ['1', '1'] ∧ ['1', '1'].head? ≠ some '/' ∧
    (∀ p ∈ [(' ', ['/', '2']), ('\t', []), (' ', ['1', '0'])], IsBlank p.1 ∧ BlankFree p.2) ∧
    '\n' ∉ lineOfTokens ['1', '1'] [(' ', ['/', '2']), ('\t', []), (' ', ['1', '0'])] ∧
    bytesOfTokens [['1', '1'], ['/', '2'], [], ['1', '0']] = [3, 2] ∧ '\n' ∉ [' ', '1', '1'] := by
  refine ⟨?_, by decide, ?_, ?_, ?_, by decide⟩ <;>
    simp [BlankFree, IsBlank, lineOfTokens, bytesOfTokens, literalValue, binaryValue]

theorem witness_RomIsLoadedOnceBeforeTheFirstStep :
    (∃ x, Session.constructed.calls ([.flush] ++ .load [0x05, 0xF8] :: [.step, .flush, .step]) = some x) ∧
    (∃ x, Session.constructed.calls [.flush, .step] = some x) ∧ (∀ image, HostCall.load image ∉ [.flush, .step]) :=
  ⟨⟨_, rfl⟩, ⟨_, rfl⟩, by simp⟩

end Sys2Proof.Tests
end

/-! The statements of 10_state.md: registers, reset and load, who reads the flags, who reaches the
console. -/

namespace Sys2Proof.Machine

open Sys2Proof.Claims

/-! ### Registers (10_state.md R16) -/

/-- Settles O3: the register law `readReg_writeReg`, sorted by the address read. -/
theorem registerReadsLastWriteButZero : Obligations.RegisterReadsLastWriteButZero := by
  intro s r q v
  refine ⟨State.readReg_zero s, State.readReg_zero _, ?_⟩
  rw [State.readReg_writeReg]
  by_cases hq : q = 0
  · subst hq
    rw [if_pos rfl, if_neg fun h => h.2 h.1.symm, State.readReg_zero]
  · have hiff : (q = r ∧ r ≠ 0) ↔ q = r := and_iff_left_of_imp fun h => h ▸ hq
    rw [if_neg hq, if_congr hiff rfl rfl]

/-! ### Reset and load (R36) -/

@[simp] theorem State.readReg_reset (r : RegAddr) : State.reset.readReg r = 0 := by
  revert r; decide

/-- Boot with an image that fits is the reset state with that image in ROM. -/
theorem boot_eq_some {image : List Byte} (h : image.length ≤ 1024) :
    boot image = some (State.reset.withImage image) := by
  simp [boot, Session.load_eq_some.mpr ⟨rfl, h, rfl⟩]

/-- Every byte of the ROM that a boot leaves is the image's, or 0 beyond it. -/
theorem read_rom_reset_withImage (image : List Byte) (a : Nat) :
    (State.reset.withImage image).rom.read a = (image[a]?).getD 0 :=
  State.read_withImage (Memory.wf_nil _) image a

/-- Settles O1: boot changes only the ROM of the reset state, whose fields are the table's values. -/
theorem resetAndLoadLeaveSpecValues : Obligations.ResetAndLoadLeaveSpecValues := by
  refine ⟨rfl, fun image hfits => ⟨_, boot_eq_some hfits, State.readReg_reset, ?_⟩⟩
  exact ⟨rfl, rfl, rfl, rfl, rfl, fun _ => rfl, read_rom_reset_withImage image, rfl, rfl, rfl⟩

/-! ### Updates that the partial operations do not see

`g` stands for the update of one state element. An operation that reads nothing `g` changes commutes
with it. -/

/-- An operation that may raise commutes with an update that a raise and its continuation commute with. -/
theorem State.orRaise_comm {α : Type} (g : State → State) {s : State} {r : Except FaultRecord α}
    {k k' : α → State} (hraise : ∀ f, (g s).raise f = g (s.raise f)) (hk : ∀ v, k' v = g (k v)) :
    (g s).orRaise r k' = g (s.orRaise r k) := by
  cases r with
  | error f => exact hraise f
  | ok v => exact hk v

/-- ICS and BRC commute with an update of what neither their condition nor their immediate reads. -/
theorem State.conditional_comm (g : State → State) {s : State} {c : CondCode} {w : Byte} {a : Nat}
    {taken taken' : Byte → State} (hcond : (g s).cond c w a = s.cond c w a)
    (himm : (g s).fetchImm w a = s.fetchImm w a) (hraise : ∀ f, (g s).raise f = g (s.raise f))
    (hinc : (g s).incPc = g s.incPc) (htaken : ∀ v, taken' v = g (taken v)) :
    (g s).conditional c w a taken' = g (s.conditional c w a taken) := by
  unfold State.conditional
  rw [hcond, himm]
  refine State.orRaise_comm g hraise fun holds => ?_
  cases holds with
  | false => exact hinc
  | true => exact State.orRaise_comm g hraise htaken

/-! ### Flags (R24, R25) -/

/-- Execution without a condition leaves the same state whatever the flags were: those it computes, or
those it was given. -/
theorem execState_withFlags {i : Instr} (h : readsFlags i = false) (s : State) (f : Flags) :
    execState i { s with flags := f } =
      { execState i s with flags := if writesFlags i then (execState i s).flags else f } := by
  cases i with
  | ics c => cases h
  | brc c => cases h
  | ldi r => exact State.orRaise_comm (s := s.incPc) (fun t => { t with flags := f }) (fun _ => rfl) fun _ => rfl
  | _ => rfl

/-- Settles O51, by `execState_withFlags`. -/
theorem flagsAreReadByConditionsAlone : Obligations.FlagsAreReadByConditionsAlone := by
  intro i s t f hreads hexec
  rw [exec_next_iff] at hexec ⊢
  rw [hexec]
  exact (execState_withFlags hreads s f).symm

/-! ### Console (R32) -/

/-- The one word of `PST 7` is 0xBF (30_encoding.md R65). -/
theorem decodeWord_eq_pst_seven (w : Byte) : decodeWord w = .pst 7 ↔ w = 0xBF := by
  revert w; decide

/-- `PST 7` appends the accumulator, whatever the console holds. -/
theorem execState_pst_seven_withConsole (s : State) (c : List Byte) :
    execState (.pst 7) { s with console := c } =
      { execState (.pst 7) s with console := c ++ [s.acc] } := rfl

/-- A write to any other port drops the byte (20_memory.md R44). -/
theorem State.portWrite_of_ne {p : PortNum} (h : p ≠ Config.consolePort) (s : State) (v : Byte) :
    s.portWrite p v = s := by
  rw [State.portWrite, if_neg h]

/-- Every other instruction keeps the console and does not read it. -/
theorem execState_withConsole {i : Instr} (h : i ≠ .pst 7) (s : State) (c : List Byte) :
    execState i { s with console := c } = { execState i s with console := c } := by
  cases i with
  | pst p =>
    have hp : p ≠ Config.consolePort := fun hp => h (congrArg Instr.pst hp)
    have hpst : ∀ u : State, execState (.pst p) u = u.incPc := fun u => State.portWrite_of_ne hp u.incPc u.acc
    rw [hpst, hpst]
    rfl
  | ldi r =>
    exact State.orRaise_comm (s := s.incPc) (fun t => { t with console := c }) (fun _ => rfl) fun _ => rfl
  | ics k =>
    exact State.conditional_comm (s := s.incPc) (fun t => { t with console := c })
      rfl rfl (fun _ => rfl) rfl fun _ => rfl
  | brc k =>
    exact State.conditional_comm (s := s.incPc) (fun t => { t with console := c })
      rfl rfl (fun _ => rfl) rfl fun _ => rfl
  | _ => rfl

theorem wordAt_of_lt {s : State} (h : s.ea < 1024) : wordAt s = some (s.rom.read s.ea) := if_pos h

theorem wordAt_of_not_lt {s : State} (h : ¬ s.ea < 1024) : wordAt s = none := if_neg h

theorem consoleOutput_of_wordAt_eq {s : State} (h : wordAt s = some 0xBF) : consoleOutput s = [s.acc] :=
  if_pos h

theorem consoleOutput_of_wordAt_ne {s : State} (h : wordAt s ≠ some 0xBF) : consoleOutput s = [] :=
  if_neg h

/-- A step from an address in ROM executes the word there (R72). -/
theorem stepState_of_lt {s : State} (h : s.ea < 1024) :
    stepState s = execState (decodeWord (s.rom.read s.ea)) s := if_pos h

/-- A step from an address beyond ROM raises (R123). -/
theorem stepState_of_not_lt {s : State} (h : ¬ s.ea < 1024) :
    stepState s = s.raise (.fetchOutOfRange s.ea) := if_neg h

/-- A step from any console leaves the same state, with that console extended by the step's output. -/
theorem stepState_withConsole (s : State) (c : List Byte) :
    stepState { s with console := c } = { stepState s with console := c ++ consoleOutput s } := by
  by_cases he : s.ea < 1024
  · rw [stepState_of_lt he, stepState_of_lt (s := { s with console := c }) he]
    by_cases hw : s.rom.read s.ea = 0xBF
    · rw [consoleOutput_of_wordAt_eq ((wordAt_of_lt he).trans (congrArg some hw))]
      show execState (decodeWord (s.rom.read s.ea)) { s with console := c } = _
      rw [(decodeWord_eq_pst_seven _).mpr hw]
      exact execState_pst_seven_withConsole s c
    · rw [consoleOutput_of_wordAt_ne (by rw [wordAt_of_lt he]; exact mt Option.some.inj hw),
        List.append_nil]
      exact execState_withConsole (mt (decodeWord_eq_pst_seven _).mp hw) s c
  · rw [stepState_of_not_lt he, stepState_of_not_lt (s := { s with console := c }) he,
      consoleOutput_of_wordAt_ne (by rw [wordAt_of_not_lt he]; nofun), List.append_nil]
    rfl

/-- The console after a step: the one before it, then the step's output. -/
theorem stepState_console (s : State) : (stepState s).console = s.console ++ consoleOutput s :=
  congrArg State.console (stepState_withConsole s s.console)

/-- A next state is the one that `stepState` names. -/
theorem eq_stepState_of_step {s t : State} (h : step s = .next t) : t = stepState s :=
  Host.Outcome.next.inj (h.symm.trans (step_eq (live_of_step h)))

/-- Settles O49: a step commutes with the replacement of the console, up to its own output. -/
theorem consoleIsAppendedAndNeverRead : Obligations.ConsoleIsAppendedAndNeverRead := by
  refine ⟨rfl, fun s t h => ?_, fun s t c h => ?_, fun _ => rfl⟩
  · rw [eq_stepState_of_step h]
    exact stepState_console s
  · have hlive : s.Live := live_of_step h
    rw [step_eq (s := { s with console := c }) hlive, stepState_withConsole, ← eq_stepState_of_step h]

end Sys2Proof.Machine

/-! The statements of 30_encoding.md: the two fields of a word, and the word they give back. -/

namespace Sys2Proof

/-! ### The fields of a word (30_encoding.md R59) -/

@[simp] theorem opcodeOf_toNat (w : Byte) : (opcodeOf w).toNat = w.toNat / 8 := by
  have hlt : w.toNat / 8 < 2 ^ 5 := by have := w.isLt; omega
  rw [opcodeOf, BitVec.extractLsb'_toNat, Nat.shiftRight_eq_div_pow]
  exact Nat.mod_eq_of_lt hlt

@[simp] theorem operandOf_toNat (w : Byte) : (operandOf w).toNat = w.toNat % 8 := by
  rw [operandOf, BitVec.extractLsb'_toNat, Nat.shiftRight_zero]

/-- Every arm of the opcode map (R65) passes the operand field on. -/
@[simp] theorem decodeWord_operand (w : Byte) : (decodeWord w).operand = operandOf w := by
  unfold decodeWord
  split <;> rfl

/-- Every arm of the opcode map (R65) stands at its instruction's opcode; the last one at 31 alone,
since the field has 5 bits. -/
@[simp] theorem decodeWord_opcode (w : Byte) : (decodeWord w).opcode = (opcodeOf w).toNat := by
  have hlt : (opcodeOf w).toNat < 32 := (opcodeOf w).isLt
  unfold decodeWord
  generalize (opcodeOf w).toNat = n at hlt ⊢
  interval_cases n <;> rfl

/-- A word is its opcode field times 8 plus its operand field. -/
theorem toNat_eq_opcode_mul_add_operand (w : Byte) :
    w.toNat = (decodeWord w).opcode * 8 + (decodeWord w).operand.toNat := by
  rw [decodeWord_opcode, decodeWord_operand, opcodeOf_toNat, operandOf_toNat]
  exact (Nat.div_add_mod' w.toNat 8).symm

/-- Decoding loses no bit. -/
@[simp] theorem encodeWord_decodeWord (w : Byte) : encodeWord (decodeWord w) = w := by
  rw [encodeWord, ← toNat_eq_opcode_mul_add_operand, BitVec.ofNat_toNat, BitVec.setWidth_eq]

/-- Settles O38: decoding keeps both fields of the word, and they give the word back. -/
theorem everyWordIsOpcodeTimesEightPlusOperand : Obligations.EveryWordIsOpcodeTimesEightPlusOperand := by
  intro w
  refine ⟨?_, ?_, toNat_eq_opcode_mul_add_operand w, encodeWord_decodeWord w⟩
  · rw [decodeWord_opcode, opcodeOf_toNat]
  · rw [decodeWord_operand, operandOf_toNat]

end Sys2Proof

/-! The statements of 40_fetch_dispatch.md: the advance of the program counter. -/

namespace Sys2Proof.Machine

/-! ### The advance (40_fetch_dispatch.md R78) -/

/-- Below 32 the six bits do not wrap. -/
theorem nextPc_toNat_of_lt {pc : BitVec 6} (h : pc.toNat < 32) : (nextPc pc).toNat = pc.toNat + 1 := by
  have hne : pc ≠ 32 := by rintro rfl; exact absurd h (by decide)
  rw [nextPc_step hne]
  exact BitVec.toNat_add_of_lt (y := 1) (show pc.toNat + 1 < 2 ^ 6 by omega)

/-- Settles O5, by the rules of `nextPc` and `nextPage` at 32 and away from it. -/
theorem advanceWrapsAfterThirtyTwo : Obligations.AdvanceWrapsAfterThirtyTwo := by
  intro s hle
  refine ⟨fun hwrap => ?_, fun hne => ?_, rfl⟩
  · have hpc : s.pc = 32 := BitVec.eq_of_toNat_eq hwrap
    rw [State.incPc_pc, State.incPc_page, hpc, nextPc_wrap, nextPage_wrap]
    exact ⟨rfl, BitVec.toNat_add s.page 1⟩
  · have hpc : s.pc ≠ 32 := fun h => hne (congrArg BitVec.toNat h)
    exact ⟨nextPc_toNat_of_lt (lt_of_le_of_ne hle hne), nextPage_step hpc s.page⟩

end Sys2Proof.Machine

/-! The statements of 41_alu.md: the flag helpers, and the instructions that write at most the accumulator
and the flags. -/

namespace Sys2Proof.Machine

open Sys2Proof.Claims

/-! ### The word of an instruction (30_encoding.md R59, R60) -/

/-- An instruction of format `B` whose word reads back stands at 8 times its opcode. -/
theorem oneByte_of_roundTrip {i : Instr} (hword : Laws.RoundTrip.Statement i) (hformat : i.format = .b) :
    OneByte i (i.opcode * 8) i.operand := by
  obtain ⟨htoNat, -⟩ := hword
  exact ⟨hformat, htoNat⟩

/-! ### Flag helpers (R86, R87, R88) -/

/-- Narrowing takes the remainder modulo 256. -/
theorem u8_toNat (n : Int) : ((u8 n).toNat : Int) = n % 256 := by
  rw [u8, BitVec.toNat_ofInt]
  exact Int.toNat_of_nonneg (Int.emod_nonneg n (by decide))

/-- Narrowing changes exactly the integers that are no byte. -/
theorem ne_u8_toNat_iff (n : Int) : n ≠ ((u8 n).toNat : Int) ↔ n < 0 ∨ 256 ≤ n := by
  rw [u8_toNat]
  omega

/-- Bit 7 tells the bytes from 128 upwards. -/
theorem getLsbD_seven_iff (r : Byte) : r.getLsbD 7 = true ↔ 128 ≤ r.toNat := by
  rw [show r.getLsbD 7 = r.msb from (BitVec.msb_eq_getLsbD_last r).symm, BitVec.msb_eq_decide,
    decide_eq_true_iff]

/-- `resultFlags` takes zero and sign from the result and carry as it is given. -/
theorem flagsOf_resultFlags (r : Byte) {c : Bool} {carry : Prop} (h : c = true ↔ carry) :
    FlagsOf (resultFlags r c) r carry :=
  ⟨beq_iff_eq.trans BitVec.toNat_inj.symm, getLsbD_seven_iff r, h⟩

theorem flagsAdd_toNat (a b : Byte) : (flagsAdd a b).1.toNat = (a.toNat + b.toNat) % 256 := by
  have h : ((flagsAdd a b).1.toNat : Int) = (a.toNat + b.toNat : Int) % 256 := u8_toNat _
  omega

theorem flagsAdd_carry_iff (a b : Byte) :
    (flagsAdd a b).2.carry = true ↔ a.toNat + b.toNat ≠ (flagsAdd a b).1.toNat := by
  refine decide_eq_true_iff.trans (not_congr ?_)
  exact_mod_cast Iff.rfl

/-- An unbounded sum is never negative, so it leaves the bytes only upwards. -/
theorem flagsOf_flagsAdd (a b : Byte) :
    FlagsOf (flagsAdd a b).2 (flagsAdd a b).1 (256 ≤ a.toNat + b.toNat) := by
  refine flagsOf_resultFlags _ (decide_eq_true_iff.trans ((ne_u8_toNat_iff _).trans ?_))
  omega

theorem flagsSub_toNat (a b : Byte) : (flagsSub a b).1.toNat = (256 + a.toNat - b.toNat) % 256 := by
  have h : ((flagsSub a b).1.toNat : Int) = (a.toNat - b.toNat : Int) % 256 := u8_toNat _
  have hb := b.isLt
  omega

/-- An unbounded difference of bytes is at most 255, so it leaves the bytes only downwards: the carry is the
borrow. -/
theorem flagsOf_flagsSub (a b : Byte) :
    FlagsOf (flagsSub a b).2 (flagsSub a b).1 (a.toNat < b.toNat) := by
  refine flagsOf_resultFlags _ (decide_eq_true_iff.trans ((ne_u8_toNat_iff _).trans ?_))
  have ha := a.isLt
  omega

theorem flagsOf_flagsLogic (r : Byte) : FlagsOf (flagsLogic r).2 r False :=
  flagsOf_resultFlags r Bool.false_eq_true.to_iff

/-- The wrapped difference is 0 exactly for equal bytes. -/
theorem flagsSub_toNat_eq_zero_iff (a b : Byte) : (flagsSub a b).1.toNat = 0 ↔ a = b := by
  rw [flagsSub_toNat, BitVec.toNat_eq]
  have ha := a.isLt
  have hb := b.isLt
  omega

/-- Settles O8, by the rules of `flagsAdd`. -/
theorem flagsAddIsWrappedSum : Obligations.FlagsAddIsWrappedSum := fun a b =>
  ⟨flagsAdd_toNat a b, flagsOf_flagsAdd a b, flagsAdd_carry_iff a b⟩

/-! ### What each instruction leaves -/

section
variable (r : RegAddr) (n : ShiftCount) (s : State)

theorem exec_add : exec (.add r) s = .next (s.incPc.setAccFlags (flagsAdd (s.readReg r) s.acc)) := rfl
theorem exec_bsub : exec (.bsub r) s = .next (s.incPc.setAccFlags (flagsSub (s.readReg r) s.acc)) := rfl
theorem exec_cmp : exec (.cmp r) s = .next (s.incPc.setFlags (flagsSub (s.readReg r) s.acc).2) := rfl

theorem exec_or : exec (.or r) s = .next (s.incPc.setAccFlags (flagsLogic (s.acc ||| s.readReg r))) := rfl
theorem exec_nor :
    exec (.nor r) s = .next (s.incPc.setAccFlags (flagsLogic (~~~(s.acc ||| s.readReg r)))) := rfl
theorem exec_and : exec (.and r) s = .next (s.incPc.setAccFlags (flagsLogic (s.acc &&& s.readReg r))) := rfl
theorem exec_nand :
    exec (.nand r) s = .next (s.incPc.setAccFlags (flagsLogic (~~~(s.acc &&& s.readReg r)))) := rfl
theorem exec_xor : exec (.xor r) s = .next (s.incPc.setAccFlags (flagsLogic (s.acc ^^^ s.readReg r))) := rfl
theorem exec_xnor :
    exec (.xnor r) s = .next (s.incPc.setAccFlags (flagsLogic (~~~(s.acc ^^^ s.readReg r)))) := rfl

theorem exec_bsr : exec (.bsr n) s = .next (s.incPc.setAccFlags (flagsLogic (s.acc >>> n.toNat))) := rfl
theorem exec_bsl : exec (.bsl n) s = .next (s.incPc.setAccFlags (flagsLogic (s.acc <<< n.toNat))) := rfl

end

/-- An advance and a write of the accumulator and the flags leave everything else. -/
theorem accFrame_setAccFlags (s : State) (p : Byte × Flags) : AccFrame s (s.incPc.setAccFlags p) :=
  ⟨fun _ => rfl, fun _ => rfl, fun _ => rfl, rfl, ⟨rfl, rfl⟩, ⟨rfl, rfl⟩⟩

/-- To write the flags alone is to write the accumulator's own value with them. -/
theorem State.setFlags_eq_setAccFlags (s : State) (f : Flags) :
    s.setFlags f = s.setAccFlags (s.acc, f) := rfl

/-- An instruction that stores `flagsLogic v` is a bitwise or shift instruction with the result `v`. -/
theorem logicResult_of_exec {i : Instr} {s : State} {v : Byte}
    (h : exec i s = .next (s.incPc.setAccFlags (flagsLogic v))) : LogicResult i s v :=
  ⟨_, h, rfl, flagsOf_flagsLogic v, accFrame_setAccFlags s _⟩

/-- Every bitwise and shift instruction stores `flagsLogic` of some byte. -/
theorem exec_logic_of_mem {i : Instr} {o : Operand}
    (h : i ∈ [Instr.or o, .nor o, .and o, .nand o, .xor o, .xnor o, .bsr o, .bsl o]) (s : State) :
    ∃ v, exec i s = .next (s.incPc.setAccFlags (flagsLogic v)) := by
  simp only [List.mem_cons, List.not_mem_nil, or_false] at h
  rcases h with rfl | rfl | rfl | rfl | rfl | rfl | rfl | rfl
  exacts [⟨_, exec_or o s⟩, ⟨_, exec_nor o s⟩, ⟨_, exec_and o s⟩, ⟨_, exec_nand o s⟩,
    ⟨_, exec_xor o s⟩, ⟨_, exec_xnor o s⟩, ⟨_, exec_bsr o s⟩, ⟨_, exec_bsl o s⟩]

/-- Settles O10, by the rules of `flagsLogic` and of the instructions that store it. -/
theorem flagsLogicClearsCarry : Obligations.FlagsLogicClearsCarry := by
  refine ⟨fun r => ⟨rfl, flagsOf_flagsLogic r⟩, fun o s i hi => ?_⟩
  obtain ⟨v, hexec⟩ := exec_logic_of_mem hi s
  exact ⟨_, hexec, rfl⟩

/-! ### Arithmetic (R90, R92, R101) -/

/-- Settles O11: ADD stores `flagsAdd`. -/
theorem addStoresSumInAcc : Obligations.AddStoresSumInAcc := fun r s =>
  ⟨oneByte_of_roundTrip (Laws.RoundTrip.add r) rfl, _, exec_add r s,
    flagsAdd_toNat _ _, flagsOf_flagsAdd _ _, accFrame_setAccFlags s _⟩

/-- Settles O13: BSUB stores `flagsSub`. -/
theorem bsubStoresReversedDifference : Obligations.BsubStoresReversedDifference := fun r s =>
  ⟨oneByte_of_roundTrip (Laws.RoundTrip.bsub r) rfl, _, exec_bsub r s,
    flagsSub_toNat _ _, flagsOf_flagsSub _ _, accFrame_setAccFlags s _⟩

/-- Settles O17: CMP keeps only the flags of `flagsSub`, whose result is 0 exactly when the operands are
equal. -/
theorem cmpWritesFlagsOnly : Obligations.CmpWritesFlagsOnly := by
  intro r s
  obtain ⟨hzero, hmsb, hcarry⟩ := flagsOf_flagsSub (s.readReg r) s.acc
  rw [flagsSub_toNat_eq_zero_iff] at hzero
  rw [flagsSub_toNat] at hmsb
  refine ⟨oneByte_of_roundTrip (Laws.RoundTrip.cmp r) rfl, _, exec_cmp r s, ⟨hzero, hmsb, hcarry⟩, rfl, ?_⟩
  rw [State.setFlags_eq_setAccFlags]
  exact accFrame_setAccFlags s _

/-! ### Bitwise operations (R93 to R98) -/

/-- Within the byte, complement negates each bit. -/
theorem getLsbD_not_of_lt (v : Byte) {k : Nat} (h : k < 8) : (~~~v).getLsbD k = !v.getLsbD k := by
  rw [BitVec.getLsbD_not, decide_eq_true h, Bool.true_and]

/-- Settles O14: each of the six stores its operation of the two bytes, which acts bit by bit. -/
theorem bitwiseInstructionsActBitByBit : Obligations.BitwiseInstructionsActBitByBit := by
  intro r s
  refine ⟨⟨oneByte_of_roundTrip (Laws.RoundTrip.or r) rfl, _,
      logicResult_of_exec (exec_or r s), fun k _ => BitVec.getLsbD_or⟩,
    ⟨oneByte_of_roundTrip (Laws.RoundTrip.nor r) rfl, _,
      logicResult_of_exec (exec_nor r s), fun k hk => ?nor⟩,
    ⟨oneByte_of_roundTrip (Laws.RoundTrip.and r) rfl, _,
      logicResult_of_exec (exec_and r s), fun k _ => BitVec.getLsbD_and⟩,
    ⟨oneByte_of_roundTrip (Laws.RoundTrip.nand r) rfl, _,
      logicResult_of_exec (exec_nand r s), fun k hk => ?nand⟩,
    ⟨oneByte_of_roundTrip (Laws.RoundTrip.xor r) rfl, _,
      logicResult_of_exec (exec_xor r s), fun k _ => BitVec.getLsbD_xor⟩,
    ⟨oneByte_of_roundTrip (Laws.RoundTrip.xnor r) rfl, _,
      logicResult_of_exec (exec_xnor r s), fun k hk => ?xnor⟩⟩
  case nor => rw [getLsbD_not_of_lt _ hk, BitVec.getLsbD_or]
  case nand => rw [getLsbD_not_of_lt _ hk, BitVec.getLsbD_and]
  case xnor => rw [getLsbD_not_of_lt _ hk, BitVec.getLsbD_xor]

/-! ### Shifts (R102, R103) -/

/-- Settles O18: a shift by `n` divides or multiplies by `2 ^ n`, within the byte. -/
theorem shiftsMoveZerosIn : Obligations.ShiftsMoveZerosIn := by
  intro n s
  refine ⟨⟨oneByte_of_roundTrip (Laws.RoundTrip.bsr n) rfl, _,
      logicResult_of_exec (exec_bsr n s), ?right⟩,
    ⟨oneByte_of_roundTrip (Laws.RoundTrip.bsl n) rfl, _,
      logicResult_of_exec (exec_bsl n s), ?left⟩⟩
  case right => rw [BitVec.toNat_ushiftRight, Nat.shiftRight_eq_div_pow]
  case left => rw [BitVec.toNat_shiftLeft, Nat.shiftLeft_eq]

end Sys2Proof.Machine

/-! The statements of 42_data_movement.md: register, memory and port transfers. -/

namespace Sys2Proof.Machine

open Sys2Proof.Claims

/-! ### What each transfer leaves -/

section
variable (r : RegAddr) (a : RamAddr) (p : PortNum) (s : State)

theorem exec_rld : exec (.rld r) s = .next (s.incPc.setAcc (s.readReg r)) := rfl
theorem exec_rst : exec (.rst r) s = .next (s.incPc.writeReg r s.acc) := rfl
theorem exec_mst : exec (.mst a) s = .next (s.incPc.memWrite a s.acc) := rfl
theorem exec_mld : exec (.mld a) s = .next (s.incPc.setAcc (s.memRead a)) := rfl
theorem exec_pst : exec (.pst p) s = .next (s.incPc.portWrite p s.acc) := rfl
theorem exec_pld : exec (.pld p) s = .next (s.incPc.setAcc (s.portRead p)) := rfl

end

/-- Every port reads 0 (20_memory.md R45). -/
@[simp] theorem State.portRead_eq_zero (s : State) (p : PortNum) : s.portRead p = 0 := rfl

/-- To write the accumulator alone is to write the flags' own value with it. -/
theorem State.setAcc_eq_setAccFlags (s : State) (v : Byte) : s.setAcc v = s.setAccFlags (v, s.flags) := rfl

/-- An advance and a write of the accumulator leave everything else. -/
theorem accFrame_setAcc (s : State) (v : Byte) : AccFrame s (s.incPc.setAcc v) := by
  rw [State.setAcc_eq_setAccFlags]
  exact accFrame_setAccFlags s _

/-- A written register reads as the byte written, except register 0 (R16, R17). -/
theorem State.readReg_writeReg_self (s : State) (r : RegAddr) (v : Byte) :
    (s.writeReg r v).readReg r = if r = 0 then 0 else v := by
  by_cases hr : r = 0
  · rw [if_pos hr, hr, State.readReg_zero]
  · rw [if_neg hr, State.readReg_writeReg, if_pos ⟨rfl, hr⟩]

/-- A register write leaves every other register. -/
theorem State.readReg_writeReg_of_ne {q r : RegAddr} (h : q ≠ r) (s : State) (v : Byte) :
    (s.writeReg r v).readReg q = s.readReg q := by
  rw [State.readReg_writeReg, if_neg fun hq => h hq.1]

/-- An advance and a write of register `r` leave everything else. -/
theorem regFrame_writeReg (s : State) (r : RegAddr) (v : Byte) : RegFrame r s (s.incPc.writeReg r v) :=
  ⟨fun _ hq => State.readReg_writeReg_of_ne hq s.incPc v,
    rfl, fun _ => rfl, fun _ => rfl, rfl, ⟨rfl, rfl⟩⟩

/-- The console is port 7 (20_memory.md R43, R44). -/
theorem eq_consolePort_iff (p : PortNum) : p = Config.consolePort ↔ p.toNat = 7 :=
  BitVec.toNat_inj.symm

/-- An operand reaches only the first eight bytes of RAM (20_memory.md R42). -/
theorem ramAddress_lt (a : RamAddr) : ramAddress a < 8 := a.isLt

/-! ### Registers (R106, R107) -/

/-- Settles O20: RLD writes the accumulator alone, RST its register alone. -/
theorem rldAndRstMoveBetweenAccAndRegister : Obligations.RldAndRstMoveBetweenAccAndRegister := fun r s =>
  ⟨⟨oneByte_of_roundTrip (Laws.RoundTrip.rld r) rfl, _, exec_rld r s, rfl, rfl, accFrame_setAcc s _⟩,
    ⟨oneByte_of_roundTrip (Laws.RoundTrip.rst r) rfl, _, exec_rst r s,
      State.readReg_writeReg_self _ r _, rfl, regFrame_writeReg s r _, ⟨rfl, rfl⟩⟩⟩

/-! ### Memory (R108, R109) -/

/-- Settles O21: the one byte of RAM that MST writes is the one at its address, by the read-after-write law
of memories in canonical form. -/
theorem mstStoresAccInRam : Obligations.MstStoresAccInRam := by
  rintro a s ⟨-, hrising, -⟩
  have hread : ∀ b, (s.incPc.memWrite a s.acc).ram.read b =
      if b = ramAddress a then s.acc else s.ram.read b :=
    fun b => Memory.read_write hrising (ramAddress a) b s.acc
  refine ⟨oneByte_of_roundTrip (Laws.RoundTrip.mst a) rfl, _, exec_mst a s, ?stored, ?others,
    ramAddress_lt a, fun _ => rfl, rfl, rfl, fun _ => rfl, rfl, ⟨rfl, rfl⟩, ⟨rfl, rfl⟩⟩
  case stored => rw [hread, if_pos rfl]
  case others =>
    intro b hb
    rw [hread, if_neg hb]

/-- Settles O22: MLD writes the accumulator alone, with the byte at its operand's number. -/
theorem mldLoadsAccFromRam : Obligations.MldLoadsAccFromRam := fun a s =>
  ⟨oneByte_of_roundTrip (Laws.RoundTrip.mld a) rfl, _, exec_mld a s, rfl, rfl, accFrame_setAcc s _⟩

/-! ### Ports (R110, R111) -/

/-- Settles O23: PST writes its port alone, and the console is port 7. -/
theorem pstAppendsToConsoleAtPortSeven : Obligations.PstAppendsToConsoleAtPortSeven := by
  intro p s
  refine ⟨oneByte_of_roundTrip (Laws.RoundTrip.pst p) rfl, _, exec_pst p s, ?console,
    fun _ => rfl, rfl, rfl, fun _ => rfl, fun _ => rfl, ⟨rfl, rfl⟩, ⟨rfl, rfl⟩⟩
  case console => exact if_congr (eq_consolePort_iff p) rfl rfl

/-- Settles O24: PLD writes the accumulator alone, with what its port reads. -/
theorem pldClearsAcc : Obligations.PldClearsAcc := fun p s =>
  ⟨oneByte_of_roundTrip (Laws.RoundTrip.pld p) rfl, _, exec_pld p s,
    State.portRead_eq_zero s p, rfl, accFrame_setAcc s _⟩

end Sys2Proof.Machine

/-! The statements of 30_encoding.md about the round trip: what the decoder reads is exactly what the
encoder lays out. -/

namespace Sys2Proof

open Laws

/-! ### Words (30_encoding.md R59, R65) -/

/-- The encoding law of `Laws.RoundTrip`, for every instruction. -/
theorem roundTrip (i : Instr) : RoundTrip.Statement i := by
  cases i
  exacts [RoundTrip.nop _, RoundTrip.add _, RoundTrip.sub _, RoundTrip.bsub _, RoundTrip.or _,
    RoundTrip.nor _, RoundTrip.and _, RoundTrip.nand _, RoundTrip.xor _, RoundTrip.xnor _,
    RoundTrip.ldi _, RoundTrip.adr _, RoundTrip.rld _, RoundTrip.rst _, RoundTrip.mst _,
    RoundTrip.mld _, RoundTrip.ics _, RoundTrip.jid _, RoundTrip.brc _, RoundTrip.dec _,
    RoundTrip.cmp _, RoundTrip.bsr _, RoundTrip.bsl _, RoundTrip.pst _, RoundTrip.pld _,
    RoundTrip.inc _, RoundTrip.illegal26 _, RoundTrip.illegal27 _, RoundTrip.illegal28 _,
    RoundTrip.illegal29 _, RoundTrip.illegal30 _, RoundTrip.hlt _]

@[simp] theorem decodeWord_encodeWord (i : Instr) : decodeWord (encodeWord i) = i := by
  obtain ⟨-, -, -, hdecode⟩ := roundTrip i
  exact hdecode

/-- Settles O37: each word is a literal, decoded by evaluation. -/
theorem writtenOutWordsDecode : Obligations.WrittenOutWordsDecode := by
  unfold Obligations.WrittenOutWordsDecode
  decide

/-! ### Layout (30_encoding.md R60, R61) -/

/-- The opcodes of the three instructions with an immediate. -/
theorem format_eq_bi_iff (i : Instr) :
    i.format = .bi ↔ i.opcode = 10 ∨ i.opcode = 16 ∨ i.opcode = 18 := by
  cases i <;> simp [Instr.format, Instr.opcode]

theorem immFits_of_format_b {c : ImageInstr} (h : c.instr.format = .b) :
    c.immFits = true ↔ c.imm = none := by
  obtain ⟨i, imm⟩ := c
  cases imm <;> simp_all [ImageInstr.immFits]

theorem immFits_of_format_bi {c : ImageInstr} (h : c.instr.format = .bi) :
    c.immFits = true ↔ ∃ v, c.imm = some v := by
  obtain ⟨i, imm⟩ := c
  cases imm <;> simp_all [ImageInstr.immFits]

/-- The decoder reads back what the encoder laid out. -/
theorem decodeBytes_encodeBytes_append {c : ImageInstr} (h : c.immFits = true) (rest : List Byte) :
    decodeBytes (encodeBytes c ++ rest) = .ok (c, rest) := by
  have hword : (decodeWord (encodeWord c.instr)).format = c.instr.format :=
    congrArg Instr.format (decodeWord_encodeWord c.instr)
  obtain ⟨i, imm⟩ := c
  cases hf : i.format with
  | b =>
    obtain rfl : imm = none := (immFits_of_format_b hf).mp h
    exact (decodeBytes_b (hword.trans hf) rest).trans (by rw [decodeWord_encodeWord])
  | bi =>
    obtain ⟨v, rfl⟩ : ∃ v, imm = some v := (immFits_of_format_bi hf).mp h
    exact (decodeBytes_bi (hword.trans hf) v rest).trans (by rw [decodeWord_encodeWord])

/-- Everything the decoder can answer, by the word in front and its format. -/
theorem decodeBytes_cases (bytes : List Byte) :
    (bytes = [] ∧ decodeBytes bytes = .error .noWord) ∨
    (∃ w rest, bytes = w :: rest ∧ (decodeWord w).format = .b ∧
      decodeBytes bytes = .ok (⟨decodeWord w, none⟩, rest)) ∨
    (∃ w imm rest, bytes = w :: imm :: rest ∧ (decodeWord w).format = .bi ∧
      decodeBytes bytes = .ok (⟨decodeWord w, some imm⟩, rest)) ∨
    (∃ w, bytes = [w] ∧ (decodeWord w).format = .bi ∧ decodeBytes bytes = .error .noImmediate) := by
  cases bytes with
  | nil => exact .inl ⟨rfl, decodeBytes_nil⟩
  | cons w rest =>
    cases hf : (decodeWord w).format with
    | b => exact .inr (.inl ⟨w, rest, rfl, hf, decodeBytes_b hf rest⟩)
    | bi =>
      cases rest with
      | nil => exact .inr (.inr (.inr ⟨w, rfl, hf, decodeBytes_bi_nil hf⟩))
      | cons imm rest => exact .inr (.inr (.inl ⟨w, imm, rest, rfl, hf, decodeBytes_bi hf imm rest⟩))

/-- What the decoder reads, the encoder lays out in the bytes read. -/
theorem encodeBytes_of_decodeBytes {bytes rest : List Byte} {c : ImageInstr}
    (h : decodeBytes bytes = .ok (c, rest)) : encodeBytes c ++ rest = bytes ∧ c.immFits = true := by
  rcases decodeBytes_cases bytes with
    ⟨-, e⟩ | ⟨w, _, rfl, hf, e⟩ | ⟨w, imm, _, rfl, hf, e⟩ | ⟨w, -, -, e⟩ <;> rw [e] at h <;> cases h
  case inr.inl =>
    exact ⟨congrArg (· :: rest) (encodeWord_decodeWord w), (immFits_of_format_b hf).mpr rfl⟩
  case inr.inr.inl =>
    exact ⟨congrArg (· :: imm :: rest) (encodeWord_decodeWord w), (immFits_of_format_bi hf).mpr ⟨imm, rfl⟩⟩

/-- The length of a layout is told by the opcode alone. -/
theorem length_encodeBytes {c : ImageInstr} (h : c.immFits = true) :
    (encodeBytes c).length =
      if c.instr.opcode = 10 ∨ c.instr.opcode = 16 ∨ c.instr.opcode = 18 then 2 else 1 := by
  rw [← if_congr (format_eq_bi_iff c.instr) rfl rfl]
  cases hf : c.instr.format with
  | b => simp [encodeBytes, (immFits_of_format_b hf).mp h]
  | bi =>
    obtain ⟨v, hv⟩ := (immFits_of_format_bi hf).mp h
    simp [encodeBytes, hv]

/-- The decoder stops only where there is no word, or where the byte after one is missing. -/
theorem decodeBytes_eq_error {bytes : List Byte} {e : DecodeError} (h : decodeBytes bytes = .error e) :
    (e = .noWord ∧ bytes = []) ∨ (e = .noImmediate ∧ ∃ w, bytes = [w] ∧ (decodeWord w).format = .bi) := by
  rcases decodeBytes_cases bytes with
    ⟨hb, eq⟩ | ⟨_, _, -, -, eq⟩ | ⟨_, _, _, -, -, eq⟩ | ⟨w, hb, hf, eq⟩ <;> rw [eq] at h <;> cases h
  case inl => exact .inl ⟨rfl, hb⟩
  case inr.inr.inr => exact .inr ⟨rfl, w, hb, hf⟩

/-- Settles O39, by the encoding law of each instruction. -/
theorem decodeOfEncodeGivesBack : Obligations.DecodeOfEncodeGivesBack :=
  ⟨decodeWord_encodeWord, fun _ rest hfits => decodeBytes_encodeBytes_append hfits rest⟩

/-- Settles O40, by the cases of `decodeBytes`. -/
theorem encodeOfDecodeGivesBack : Obligations.EncodeOfDecodeGivesBack := by
  refine fun bytes => ⟨fun c rest h => ?_, fun e h => ?_⟩
  · obtain ⟨hbytes, hfits⟩ := encodeBytes_of_decodeBytes h
    exact ⟨hbytes, hfits, length_encodeBytes hfits⟩
  · refine (decodeBytes_eq_error h).imp_right fun ⟨he, w, hw, hf⟩ => ⟨he, w, hw, ?_⟩
    rwa [format_eq_bi_iff, decodeWord_opcode, opcodeOf_toNat] at hf

end Sys2Proof

/-! What every instruction keeps: the laws of `execState` that the statements about a step, an invariant or
a reader and writer are read off from. -/

namespace Sys2Proof.Machine

open Sys2Proof.Claims

/-! ### The instructions that fetch an immediate

Whichever of their cases they end in, ICS and BRC write at most `pc`, `page` and the fault record, and LDI
the register file besides. -/

theorem execIcs_writes (c : CondCode) (s : State) :
    ∃ pc page fault, execState (.ics c) s = { s with pc := pc, page := page, fault := fault } := by
  rcases execIcs_cases c s with ⟨-, e⟩ | ⟨_, -, -, e⟩ | ⟨_, -, -, -, e⟩ | ⟨_, -, -, -, e⟩ <;>
    exact ⟨_, _, _, e⟩

theorem execBrc_writes (c : CondCode) (s : State) :
    ∃ pc page fault, execState (.brc c) s = { s with pc := pc, page := page, fault := fault } := by
  rcases execBrc_cases c s with ⟨-, e⟩ | ⟨_, -, -, e⟩ | ⟨_, -, -, -, e⟩ | ⟨_, -, -, -, e⟩ <;>
    exact ⟨_, _, _, e⟩

theorem execLdi_writes (r : RegAddr) (s : State) :
    ∃ x pc page fault, execState (.ldi r) s = { s with x := x, pc := pc, page := page, fault := fault } := by
  rcases execLdi_cases r s with ⟨-, e⟩ | ⟨-, e⟩ <;> exact ⟨_, _, _, _, e⟩

/-! ### One element at a time -/

/-- No instruction writes ROM (20_memory.md R37). -/
@[simp] theorem execState_rom (i : Instr) (s : State) : (execState i s).rom = s.rom := by
  cases i with
  | ldi r => obtain ⟨_, _, _, _, e⟩ := execLdi_writes r s; rw [e]
  | ics c => obtain ⟨_, _, _, e⟩ := execIcs_writes c s; rw [e]
  | brc c => obtain ⟨_, _, _, e⟩ := execBrc_writes c s; rw [e]
  | _ => rfl

/-- Only MST writes RAM (20_memory.md R42). -/
theorem execState_ram {i : Instr} (h : ∀ a, i ≠ .mst a) (s : State) : (execState i s).ram = s.ram := by
  cases i with
  | mst a => exact absurd rfl (h a)
  | ldi r => obtain ⟨_, _, _, _, e⟩ := execLdi_writes r s; rw [e]
  | ics c => obtain ⟨_, _, _, e⟩ := execIcs_writes c s; rw [e]
  | brc c => obtain ⟨_, _, _, e⟩ := execBrc_writes c s; rw [e]
  | _ => rfl

/-- Only HLT, opcode 31, writes `halted` (10_state.md R31). -/
theorem execState_halted (i : Instr) (s : State) :
    (execState i s).halted = if i.opcode = 31 then true else s.halted := by
  cases i with
  | ldi r => obtain ⟨_, _, _, _, e⟩ := execLdi_writes r s; rw [e]; rfl
  | ics c => obtain ⟨_, _, _, e⟩ := execIcs_writes c s; rw [e]; rfl
  | brc c => obtain ⟨_, _, _, e⟩ := execBrc_writes c s; rw [e]; rfl
  | _ => rfl

/-- The flags have the writers of 10_state.md R24 alone. -/
theorem execState_flags {i : Instr} (h : writesFlags i = false) (s : State) :
    (execState i s).flags = s.flags := by
  cases i with
  | ldi r => obtain ⟨_, _, _, _, e⟩ := execLdi_writes r s; rw [e]
  | ics c => obtain ⟨_, _, _, e⟩ := execIcs_writes c s; rw [e]
  | brc c => obtain ⟨_, _, _, e⟩ := execBrc_writes c s; rw [e]
  | nop | rld | rst | mst | mld | jid | pst | pld | hlt => rfl
  | illegal26 | illegal27 | illegal28 | illegal29 | illegal30 => rfl
  | _ => cases h

/-- The accumulator has the writers of 10_state.md R21 alone. -/
theorem execState_acc {i : Instr} (h : writesAcc i = false) (s : State) :
    (execState i s).acc = s.acc := by
  cases i with
  | ldi r => obtain ⟨_, _, _, _, e⟩ := execLdi_writes r s; rw [e]
  | ics c => obtain ⟨_, _, _, e⟩ := execIcs_writes c s; rw [e]
  | brc c => obtain ⟨_, _, _, e⟩ := execBrc_writes c s; rw [e]
  | nop | adr | rst | mst | cmp | jid | pst | hlt => rfl
  | illegal26 | illegal27 | illegal28 | illegal29 | illegal30 => rfl
  | _ => cases h

/-- The register file has the writers of 10_state.md R18 alone. -/
theorem execState_x {i : Instr} (h : writesRegs i = false) (s : State) : (execState i s).x = s.x := by
  cases i with
  | ldi | adr | rst => cases h
  | ics c => obtain ⟨_, _, _, e⟩ := execIcs_writes c s; rw [e]
  | brc c => obtain ⟨_, _, _, e⟩ := execBrc_writes c s; rw [e]
  | _ => rfl

/-- A writer of the register file writes its operand's register. -/
theorem regsKeptBut_execState (i : Instr) (s : State) : RegsKeptBut i.operand s (execState i s) := by
  intro q hq
  cases i with
  | ldi r =>
    rcases execLdi_cases r s with ⟨-, e⟩ | ⟨-, e⟩
    · rw [e]; rfl
    · rw [e]; exact State.readReg_writeReg_of_ne hq s.incPc _
  | adr r => exact State.readReg_writeReg_of_ne hq s.incPc _
  | rst r => exact State.readReg_writeReg_of_ne hq s.incPc _
  | ics c => exact State.readReg_congr (execState_x rfl s) q
  | brc c => exact State.readReg_congr (execState_x rfl s) q
  | _ => rfl

/-! ### Faults -/

/-- How the class of an instruction's word tells what it does to the fault record: an illegal opcode and a
fatal condition raise in every state, a defined word raises only for its immediate (60_exceptions.md R121,
R122, R124). Every raise leaves the advanced state with its record. -/
def FaultByClass (i : Instr) (s : State) : Prop :=
  (i.wordClass = .illegalOpcode ∧
    execState i s = s.incPc.raise (.illegalOpcode (encodeWord i) s.ea)) ∨
  (i.wordClass = .fatalCondition ∧
    execState i s = s.incPc.raise (.illegalCondition (encodeWord i) s.ea i.operand)) ∨
  (i.wordClass = .defined ∧
    execState i s = s.incPc.raise (.immediateOutOfRange s.incPc.ea (encodeWord i) s.ea)) ∨
  (i.wordClass = .defined ∧ (execState i s).fault = s.fault)

/-- A condition that the table names is not operand 0. -/
theorem ne_zero_of_condOf {c : CondCode} {k : Cond} (h : condOf c = some k) : c ≠ 0 := by
  rintro rfl
  cases h

/-- ICS and BRC, whose taken path keeps the fault record. -/
theorem faultByClass_of_conditional {i : Instr} {s : State} {taken : Byte → State}
    (hexec : execState i s = s.incPc.conditional i.operand (encodeWord i) s.ea taken)
    (hclass : i.wordClass = if i.operand = 0 then .fatalCondition else .defined)
    (htaken : ∀ v, (taken v).fault = s.fault) : FaultByClass i s := by
  have hdefined {k : Cond} (hc : condOf i.operand = some k) : i.wordClass = .defined := by
    rw [hclass, if_neg (ne_zero_of_condOf hc)]
  unfold FaultByClass
  rw [hexec]
  rcases State.conditional_cases s.incPc i.operand (encodeWord i) s.ea taken with
    ⟨hc, e⟩ | ⟨k, hc, -, e⟩ | ⟨k, hc, -, -, e⟩ | ⟨k, hc, -, -, e⟩ <;> rw [e]
  · exact .inr (.inl ⟨by rw [hclass, if_pos ((condOf_eq_none _).mp hc)], rfl⟩)
  · exact .inr (.inr (.inr ⟨hdefined hc, rfl⟩))
  · exact .inr (.inr (.inl ⟨hdefined hc, rfl⟩))
  · exact .inr (.inr (.inr ⟨hdefined hc, htaken _⟩))

theorem faultByClass (i : Instr) (s : State) : FaultByClass i s := by
  cases i with
  | illegal26 | illegal27 | illegal28 | illegal29 | illegal30 => exact .inl ⟨rfl, rfl⟩
  | ldi r =>
    rcases execLdi_cases r s with ⟨-, e⟩ | ⟨-, e⟩
    · exact .inr (.inr (.inl ⟨rfl, e⟩))
    · exact .inr (.inr (.inr ⟨rfl, by rw [e]; rfl⟩))
  | ics c => exact faultByClass_of_conditional rfl rfl fun _ => rfl
  | brc c => exact faultByClass_of_conditional rfl rfl fun _ => rfl
  | _ => exact .inr (.inr (.inr ⟨rfl, rfl⟩))

/-- An instruction keeps the fault record, or it leaves the advanced state with a record set. -/
theorem execState_fault_or_raise (i : Instr) (s : State) :
    (execState i s).fault = s.fault ∨ ∃ f, execState i s = s.incPc.raise f := by
  rcases faultByClass i s with ⟨-, e⟩ | ⟨-, e⟩ | ⟨-, e⟩ | ⟨-, e⟩
  · exact .inr ⟨_, e⟩
  · exact .inr ⟨_, e⟩
  · exact .inr ⟨_, e⟩
  · exact .inl e

end Sys2Proof.Machine

/-! The statements of 10_state.md about what an instruction writes and reads, and of 20_memory.md. -/

namespace Sys2Proof.Machine

open Sys2Proof.Claims

/-! ### Writers and readers (10_state.md R18, R21, R24) -/

/-- Settles O52, by the writers of each element. -/
theorem onlyListedInstructionsWrite : Obligations.OnlyListedInstructionsWrite := by
  intro i s t hexec
  rw [exec_next_iff.mp hexec]
  exact ⟨(execState_flags · s), (execState_acc · s), (execState_x · s), regsKeptBut_execState i s⟩

/-- An instruction that ignores the accumulator leaves the same state whatever it holds. -/
theorem execState_withAcc {i : Instr} (h : ignoresAcc i = true) (s : State) (v : Byte) :
    execState i { s with acc := v } = { execState i s with acc := v } := by
  cases i with
  | ldi r =>
    exact State.orRaise_comm (s := s.incPc) (fun t => { t with acc := v }) (fun _ => rfl) fun _ => rfl
  | ics c =>
    exact State.conditional_comm (s := s.incPc) (fun t => { t with acc := v })
      rfl rfl (fun _ => rfl) rfl fun _ => rfl
  | brc c =>
    exact State.conditional_comm (s := s.incPc) (fun t => { t with acc := v })
      rfl rfl (fun _ => rfl) rfl fun _ => rfl
  | jid | nop | hlt => rfl
  | illegal26 | illegal27 | illegal28 | illegal29 | illegal30 => rfl
  | _ => cases h

/-- `u` is `t` but for the register file. -/
def SameButRegs (t u : State) : Prop := { u with x := t.x } = t

/-- ICS and BRC neither read nor write the register file. -/
theorem execIcs_withRegs (c : CondCode) (s : State) (y : Vector Byte 7) :
    execState (.ics c) { s with x := y } = { execState (.ics c) s with x := y } :=
  State.conditional_comm (s := s.incPc) (fun t => { t with x := y }) rfl rfl (fun _ => rfl) rfl fun _ => rfl

theorem execBrc_withRegs (c : CondCode) (s : State) (y : Vector Byte 7) :
    execState (.brc c) { s with x := y } = { execState (.brc c) s with x := y } :=
  State.conditional_comm (s := s.incPc) (fun t => { t with x := y }) rfl rfl (fun _ => rfl) rfl fun _ => rfl

/-- LDI writes the register file in both runs or in neither. -/
theorem sameButRegs_execLdi (r : RegAddr) (s : State) (y : Vector Byte 7) :
    SameButRegs (execState (.ldi r) s) (execState (.ldi r) { s with x := y }) := by
  rcases execLdi_cases r s with ⟨he, e⟩ | ⟨he, e⟩
  · rw [e, (execLdi_eq r { s with x := y }).trans (if_neg he)]; rfl
  · rw [e, (execLdi_eq r { s with x := y }).trans (if_pos he)]; rfl

/-- An instruction that reads no register leaves the same of every other element whatever they hold. -/
theorem sameButRegs_of_not_readsRegs {i : Instr} (h : readsRegs i = false) (s : State) (y : Vector Byte 7) :
    SameButRegs (execState i s) (execState i { s with x := y }) := by
  cases i with
  | ldi r => exact sameButRegs_execLdi r s y
  | ics c => rw [execIcs_withRegs c s y]; rfl
  | brc c => rw [execBrc_withRegs c s y]; rfl
  | nop | rst | mst | mld | dec | bsr | bsl | pst | pld | inc | hlt => rfl
  | illegal26 | illegal27 | illegal28 | illegal29 | illegal30 => rfl
  | _ => cases h

/-- An instruction that reads its operand's register depends on that register alone. -/
theorem sameButRegs_of_readReg_eq {i : Instr} {s : State} {y : Vector Byte 7} (h : readsRegs i = true)
    (hread : { s with x := y }.readReg i.operand = s.readReg i.operand) :
    SameButRegs (execState i s) (execState i { s with x := y }) := by
  cases i with
  | add | sub | bsub | or | nor | and | nand | xor | xnor | adr | rld | jid | cmp =>
    rw [Instr.operand] at hread
    simp only [execState, exec, execAdd, execSub, execBsub, execOr, execNor, execAnd, execNand, execXor,
      execXnor, execAdr, execRld, execJid, execCmp, State.readReg_incPc, hread]
    rfl
  | _ => cases h

/-- Settles O53, by the readers of each element. -/
theorem onlyListedInstructionsRead : Obligations.OnlyListedInstructionsRead := by
  refine ⟨fun i s t v hignores hexec => ?_, fun i s t y hexec hsame => ?_⟩
  · rw [exec_next_iff] at hexec ⊢
    rw [hexec]
    exact (execState_withAcc hignores s v).symm
  · rw [exec_next_iff.mp hexec]
    refine ⟨_, exec_eq i _, ?_⟩
    cases hreads : readsRegs i with
    | false => exact sameButRegs_of_not_readsRegs hreads s y
    | true => exact sameButRegs_of_readReg_eq hreads (hsame.resolve_left (by rw [hreads]; nofun))

/-! ### ROM (20_memory.md R37) -/

/-- Settles O43: neither a fetch that raises nor an instruction writes ROM. -/
theorem noStepWritesRom : Obligations.NoStepWritesRom := by
  intro s t hstep
  obtain ⟨-, ⟨-, rfl⟩ | ⟨-, rfl⟩⟩ := step_cases hstep
  · rfl
  · exact execState_rom _ s

/-! ### RAM (20_memory.md R41, R42) -/

/-- Only MLD reads RAM: every other instruction leaves the same of every other element whatever it holds. -/
theorem execState_withRam {i : Instr} (h : ∀ a, i ≠ .mld a) (s : State) (m : Memory) :
    ∃ n : Memory, execState i { s with ram := m } = { execState i s with ram := n } := by
  cases i with
  | mld a => exact absurd rfl (h a)
  | ldi r =>
    exact ⟨m, State.orRaise_comm (s := s.incPc) (fun t => { t with ram := m }) (fun _ => rfl) fun _ => rfl⟩
  | ics c =>
    exact ⟨m, State.conditional_comm (s := s.incPc) (fun t => { t with ram := m })
      rfl rfl (fun _ => rfl) rfl fun _ => rfl⟩
  | brc c =>
    exact ⟨m, State.conditional_comm (s := s.incPc) (fun t => { t with ram := m })
      rfl rfl (fun _ => rfl) rfl fun _ => rfl⟩
  | _ => exact ⟨_, rfl⟩

/-- Settles O50, by the writer and the reader of RAM. -/
theorem ramIsReachedByMstAndMldAlone : Obligations.RamIsReachedByMstAndMldAlone := by
  intro i s t hexec
  rw [exec_next_iff.mp hexec]
  refine ⟨fun hne => execState_ram hne s, fun hne m => ?_⟩
  obtain ⟨n, hn⟩ := execState_withRam hne s m
  exact ⟨n, exec_next_iff.mpr hn.symm⟩

/-- What any instruction leaves in RAM: all of it, or one byte written at an operand's address. -/
theorem execState_ram_cases (i : Instr) (s : State) :
    (execState i s).ram = s.ram ∨
      ∃ (a : RamAddr) (v : Byte), (execState i s).ram = s.ram.write (ramAddress a) v := by
  by_cases h : ∃ a, i = .mst a
  · obtain ⟨a, rfl⟩ := h
    exact .inr ⟨a, s.acc, rfl⟩
  · exact .inl (execState_ram (fun a ha => h ⟨a, ha⟩) s)

/-- A RAM that is canonical and 0 from byte 8 on stays so under a write at an operand's address. -/
theorem write_ramAddress_keeps {m : Memory} (hwf : m.wf Config.ramSize) (hhigh : ∀ b, 8 ≤ b → m.read b = 0)
    (a : RamAddr) (v : Byte) :
    (m.write (ramAddress a) v).wf Config.ramSize ∧
      ∀ b, 8 ≤ b → (m.write (ramAddress a) v).read b = 0 := by
  have ha : ramAddress a < 8 := ramAddress_lt a
  have hfits : ramAddress a < Config.ramSize := ha.trans (by decide)
  refine ⟨Memory.write_wf hwf hfits v, fun b hb => ?_⟩
  rw [Memory.read_write hwf.1, if_neg (by omega), hhigh b hb]

/-- Settles O45: a step writes at most one byte of RAM, at an operand's address, and no ROM. -/
theorem stepKeepsMemoryCanonical : Obligations.StepKeepsMemoryCanonical := by
  rintro s t ⟨hrom, hram⟩ hhigh hstep
  obtain ⟨-, ⟨-, rfl⟩ | ⟨-, rfl⟩⟩ := step_cases hstep
  · exact ⟨⟨hrom, hram⟩, hhigh⟩
  · unfold State.MemoryInv State.HighRamInv
    rw [execState_rom]
    rcases execState_ram_cases (decodeWord (s.rom.read s.ea)) s with hkept | ⟨a, v, hwrite⟩
    · rw [hkept]
      exact ⟨⟨hrom, hram⟩, hhigh⟩
    · rw [hwrite]
      obtain ⟨hram', hhigh'⟩ := write_ramAddress_keeps hram hhigh a v
      exact ⟨⟨hrom, hram'⟩, hhigh'⟩

/-! ### Addresses and the load (20_memory.md R39, R40, 70_reset_and_hazards.md R142) -/

theorem State.ea_eq (s : State) : s.ea = s.page.toNat * 32 + s.pc.toNat := rfl

/-- Settles O6, by arithmetic on the unmasked sum. -/
theorem addressLeavesRomPastPage31 : Obligations.AddressLeavesRomPastPage31 := by
  intro s hpc
  have hpage : s.page.toNat < 256 := s.page.isLt
  rw [State.ea_eq]
  omega

/-- Settles O2: a load writes its bytes from ROM address 0 upwards, and a session takes one before it is
started. -/
theorem loadWritesRomOnlyOrRefuses : Obligations.LoadWritesRomOnlyOrRefuses := by
  refine ⟨fun s image ⟨hrom, hram⟩ hfits => ⟨⟨State.withImage_wf hrom hfits, hram⟩, fun a => ?_, rfl⟩,
    fun image => ⟨fun hfits => if_pos hfits, fun hlong => if_neg (Nat.not_le.mpr hlong),
      fun s => Session.load_started s image⟩⟩
  rw [State.read_withImage hrom]
  by_cases ha : a < image.length
  · rw [if_pos ha, List.getElem?_eq_getElem ha]; rfl
  · rw [if_neg ha, List.getElem?_eq_none (Nat.not_lt.mp ha)]; rfl

end Sys2Proof.Machine

/-! The statements of 40_fetch_dispatch.md and 60_exceptions.md about a step: where one exists, what it
executes, which faults it raises, and what it keeps. -/

namespace Sys2Proof.Machine

open Sys2Proof.Claims

/-! ### Where a step exists (40_fetch_dispatch.md R73) -/

theorem step_of_halted {s : State} (h : s.halted = true) : step s = .fault .halted := if_pos h

theorem step_of_fault {s : State} (hhalted : s.halted = false) (hfault : s.fault ≠ none) :
    step s = .fault .faulted := by
  unfold step
  rw [if_neg (by rw [hhalted]; nofun), if_pos (Option.isSome_iff_ne_none.mpr hfault)]

/-- Settles O36: `step` tests both before its fetch. -/
theorem noStepAfterHaltOrFault : Obligations.NoStepAfterHaltOrFault :=
  fun _ => ⟨step_of_halted, step_of_fault⟩

/-! ### What a step executes (R72, R123) -/

/-- A live step from an address in ROM is the execution of the word there. -/
theorem step_of_lt {s : State} (hlive : s.Live) (he : s.ea < 1024) :
    step s = exec (decodeWord (s.rom.read s.ea)) s := by
  rw [step_eq hlive, stepState_of_lt he, exec_eq]

/-- A live step from an address beyond ROM raises. -/
theorem step_of_not_lt {s : State} (hlive : s.Live) (he : ¬ s.ea < 1024) :
    step s = .next (s.raise (.fetchOutOfRange s.ea)) := by
  rw [step_eq hlive, stepState_of_not_lt he]

/-- Settles O41: a step is `exec` of the decoded word, and decoding loses no bit. -/
theorem stepExecutesTheDecodedWord : Obligations.StepExecutesTheDecodedWord := by
  rintro s i hlive he rfl
  exact ⟨step_of_lt hlive he, (encodeWord_decodeWord _).symm⟩

/-- Settles O35: a raise sets the record alone. -/
theorem fetchBeyondRomRaisesBeforeAnyChange : Obligations.FetchBeyondRomRaisesBeforeAnyChange :=
  fun _ hlive he => step_of_not_lt hlive (Nat.not_lt.mpr he)

/-! ### Program counter and page (10_state.md R27, R30) -/

/-- One more advance from a page of ROM keeps both in range. -/
theorem State.incPc_addressInv {s : State} (hpc : s.pc.toNat ≤ 32) (hpage : s.page.toNat ≤ 31) :
    s.incPc.AddressInv :=
  ⟨nextPc_le hpc, nextPage_le_succ hpage⟩

/-- ICS and BRC, from an advanced state that still has a page of ROM, when their taken path keeps both in
range. -/
theorem State.conditional_addressInv {s : State} (hpc : s.pc.toNat ≤ 32) (hpage : s.page.toNat ≤ 31)
    {c : CondCode} {w : Byte} {a : Nat} {taken : Byte → State} (htaken : ∀ v, (taken v).AddressInv) :
    (s.conditional c w a taken).AddressInv := by
  have hkept : s.AddressInv := ⟨hpc, Nat.le_succ_of_le hpage⟩
  rcases State.conditional_cases s c w a taken with
    ⟨-, e⟩ | ⟨_, -, -, e⟩ | ⟨_, -, -, -, e⟩ | ⟨_, -, -, -, e⟩ <;> rw [e]
  · exact hkept
  · exact State.incPc_addressInv hpc hpage
  · exact hkept
  · exact htaken _

/-- An instruction fetched from ROM keeps `pc` and the page in range: after the one advance the page is at
most 31, so that a second advance carries it to 32 at most. -/
theorem execState_addressInv (i : Instr) {s : State} (h : s.AddressInv) (he : s.ea < 1024) :
    (execState i s).AddressInv := by
  have hpc : s.incPc.pc.toNat ≤ 32 := nextPc_le h.1
  have hpage : s.incPc.page.toNat ≤ 31 := nextPage_le he
  have hpage' : s.incPc.page.toNat ≤ 32 := Nat.le_succ_of_le hpage
  cases i with
  | ldi r =>
    rcases execLdi_cases r s with ⟨-, e⟩ | ⟨-, e⟩ <;> rw [e]
    · exact ⟨hpc, hpage'⟩
    · exact State.incPc_addressInv hpc hpage
  | ics c =>
    exact State.conditional_addressInv hpc hpage fun imm => ⟨hpc, Nat.le_succ_of_le (pageOfImm_le imm)⟩
  | brc c =>
    refine State.conditional_addressInv hpc hpage fun imm => ⟨?_, hpage'⟩
    rw [State.setPc_pc, offsetOfImm_toNat]
    omega
  | jid r =>
    refine ⟨?_, hpage'⟩
    show (offsetOfReg (s.readReg r)).toNat ≤ 32
    rw [offsetOfReg_toNat]
    omega
  | _ => exact ⟨hpc, hpage'⟩

/-- Settles O44: a fetch that raises changes neither, and an instruction keeps both in range. -/
theorem stepKeepsPcAndPageInRange : Obligations.StepKeepsPcAndPageInRange := by
  intro s t hinv hstep
  obtain ⟨-, ⟨-, rfl⟩ | ⟨he, rfl⟩⟩ := step_cases hstep
  · exact hinv
  · exact execState_addressInv _ hinv he

/-! ### Faults (60_exceptions.md R120, R121, R129) -/

/-- A write of `pc`, `page` and the fault record leaves what a raise must leave. -/
theorem faultFrame_of_writes (s : State) (pc : BitVec 6) (page : Byte) (fault : Option FaultRecord) :
    FaultFrame s { s with pc := pc, page := page, fault := fault } :=
  ⟨fun _ => rfl, rfl, rfl, rfl, fun _ => rfl, fun _ => rfl, rfl⟩

/-- A raise after the advance writes nothing but `pc`, `page` and the record. -/
theorem faultFrame_incPc_raise (s : State) (f : FaultRecord) : FaultFrame s (s.incPc.raise f) :=
  faultFrame_of_writes s _ _ _

/-- Settles O42: a step raises, or keeps the live state's empty record. -/
theorem everyLiveStepCompletesOrRaises : Obligations.EveryLiveStepCompletesOrRaises := by
  intro s hlive
  refine ⟨_, step_eq hlive, ?_⟩
  by_cases he : s.ea < 1024
  · rw [stepState_of_lt he]
    rcases execState_fault_or_raise (decodeWord (s.rom.read s.ea)) s with hkept | ⟨f, hraise⟩
    · exact .inl (hkept.trans hlive.2)
    · rw [hraise]
      exact .inr ⟨nofun, faultFrame_incPc_raise s f⟩
  · rw [stepState_of_not_lt he]
    exact .inr ⟨nofun, faultFrame_of_writes s _ _ _⟩

/-- The illegal opcodes are 26 to 30 (30_encoding.md R66). -/
theorem wordClass_eq_illegalOpcode_iff (i : Instr) :
    i.wordClass = .illegalOpcode ↔ 26 ≤ i.opcode ∧ i.opcode ≤ 30 := by
  cases i with
  | ics c | brc c => rw [Instr.wordClass]; split <;> simp [Instr.opcode]
  | _ => simp [Instr.wordClass, Instr.opcode]

/-- An illegal opcode raises in every state (R121). -/
theorem exec_of_illegalOpcode {i : Instr} (h : i.wordClass = .illegalOpcode) (s : State) :
    exec i s = .next (s.incPc.raise (.illegalOpcode (encodeWord i) s.ea)) := by
  rw [exec_eq]
  rcases faultByClass i s with ⟨-, e⟩ | ⟨hclass, -⟩ | ⟨hclass, -⟩ | ⟨hclass, -⟩
  · rw [e]
  all_goals rw [h] at hclass; cases hclass

theorem raisesIllegalOpcode {i : Instr} (h : i.wordClass = .illegalOpcode) (s : State) :
    RaisesIllegalOpcode i s :=
  ⟨_, exec_of_illegalOpcode h s, rfl, faultFrame_incPc_raise s _⟩

/-- Settles O32, by the class of the five opcodes. -/
theorem illegalOpcodesRecordWordAndAddress : Obligations.IllegalOpcodesRecordWordAndAddress := fun u s =>
  ⟨⟨oneByte_of_roundTrip (Laws.RoundTrip.illegal26 u) rfl, raisesIllegalOpcode rfl s⟩,
    ⟨oneByte_of_roundTrip (Laws.RoundTrip.illegal27 u) rfl, raisesIllegalOpcode rfl s⟩,
    ⟨oneByte_of_roundTrip (Laws.RoundTrip.illegal28 u) rfl, raisesIllegalOpcode rfl s⟩,
    ⟨oneByte_of_roundTrip (Laws.RoundTrip.illegal29 u) rfl, raisesIllegalOpcode rfl s⟩,
    ⟨oneByte_of_roundTrip (Laws.RoundTrip.illegal30 u) rfl, raisesIllegalOpcode rfl s⟩⟩

/-- A word fetched lies in ROM. -/
theorem wordAt_eq_some_iff {s : State} {w : Byte} :
    wordAt s = some w ↔ s.ea < 1024 ∧ s.rom.read s.ea = w := by
  simp [wordAt]

/-- Settles O33: the 40 bytes are those of the opcodes 26 to 30, and the record they leave stops the run. -/
theorem illegalBytesEndTheRun : Obligations.IllegalBytesEndTheRun := by
  intro s w hlive hword hlow hhigh
  obtain ⟨he, rfl⟩ := wordAt_eq_some_iff.mp hword
  have hclass : (decodeWord (s.rom.read s.ea)).wordClass = .illegalOpcode := by
    rw [wordClass_eq_illegalOpcode_iff, decodeWord_opcode, opcodeOf_toNat]
    omega
  have hstep := (step_of_lt hlive he).trans (exec_of_illegalOpcode hclass s)
  rw [encodeWord_decodeWord] at hstep
  exact ⟨_, hstep, rfl, faultFrame_incPc_raise s _, step_of_fault hlive.1 nofun⟩

/-- The words of the fatal class are 0x80 and 0x90 (30_encoding.md R67). -/
theorem wordClass_eq_fatalCondition_iff (i : Instr) :
    i.wordClass = .fatalCondition ↔ i = .ics 0 ∨ i = .brc 0 := by
  cases i <;> simp [Instr.wordClass]

/-- A fatal condition raises in every state (R122). -/
theorem exec_of_fatalCondition {i : Instr} (h : i.wordClass = .fatalCondition) (s : State) :
    exec i s = .next (s.incPc.raise (.illegalCondition (encodeWord i) s.ea i.operand)) := by
  rw [exec_eq]
  rcases faultByClass i s with ⟨hclass, -⟩ | ⟨-, e⟩ | ⟨hclass, -⟩ | ⟨hclass, -⟩
  case inr.inl => rw [e]
  all_goals rw [h] at hclass; cases hclass

/-- Settles O34, by the class of each word. -/
theorem onlyConditionZeroIsAFatalOperand : Obligations.OnlyConditionZeroIsAFatalOperand := by
  refine ⟨rfl, rfl, fun s => ⟨⟨_, s.ea, exec_of_fatalCondition rfl s, rfl⟩,
    ⟨_, s.ea, exec_of_fatalCondition rfl s, rfl⟩⟩, wordClass_eq_fatalCondition_iff, fun i s t hdefined hexec => ?_⟩
  rw [exec_next_iff.mp hexec]
  rcases faultByClass i s with ⟨hclass, -⟩ | ⟨hclass, -⟩ | ⟨-, e⟩ | ⟨-, hkept⟩
  case inr.inr.inl =>
    rw [e]
    exact .inr ⟨_, _, _, rfl⟩
  case inr.inr.inr => exact .inl hkept
  all_goals rw [hdefined] at hclass; cases hclass

/-! ### Halted (10_state.md R31) and the ends of a run (60_exceptions.md R132) -/

/-- Settles O48: `halted` is false in the live state that a step starts from, and opcode 31 alone sets it. -/
theorem haltedIsSetByHltAlone : Obligations.HaltedIsSetByHltAlone := by
  refine ⟨fun s t hstep => ?_, fun s hhalted t hstep => ?_⟩
  · obtain ⟨⟨hhalted, -⟩, ⟨he, rfl⟩ | ⟨he, rfl⟩⟩ := step_cases hstep
    · rw [State.raise_halted, hhalted, wordAt_of_not_lt he]
      simp
    · rw [execState_halted, hhalted, wordAt_of_lt he, decodeWord_opcode, opcodeOf_toNat]
      simp
  · rw [step_of_halted hhalted] at hstep
    cases hstep

/-- After a step a halted state holds no fault record: HLT keeps the live state's, and what raises keeps
`halted`. -/
theorem endInv_of_step {s t : State} (h : step s = .next t) : t.EndInv := by
  intro hhalted
  obtain ⟨⟨hrun, hfault⟩, ⟨-, rfl⟩ | ⟨-, rfl⟩⟩ := step_cases h
  · rw [State.raise_halted, hrun] at hhalted
    cases hhalted
  · rcases execState_fault_or_raise (decodeWord (s.rom.read s.ea)) s with hkept | ⟨f, hraise⟩
    · exact hkept.trans hfault
    · rw [hraise, State.raise_halted, State.incPc_halted, hrun] at hhalted
      cases hhalted

theorem State.runEnd_eq_abnormal_iff (s : State) : s.runEnd = .abnormal ↔ s.fault ≠ none := by
  unfold State.runEnd
  cases s.fault <;> cases s.halted <;> simp

theorem State.runEnd_eq_normal_iff {s : State} (h : s.EndInv) : s.runEnd = .normal ↔ s.halted = true := by
  unfold State.EndInv at h
  unfold State.runEnd
  cases hf : s.fault <;> cases hh : s.halted <;> simp_all

/-- Settles O46, by `endInv_of_step`. -/
theorem everyStepKeepsEndsOfRunApart : Obligations.EveryStepKeepsEndsOfRunApart := fun _ t hstep =>
  ⟨endInv_of_step hstep, State.runEnd_eq_normal_iff (endInv_of_step hstep), State.runEnd_eq_abnormal_iff t⟩

/-- Settles O47: the reset state is all zero, and its memories are empty. -/
theorem resetMeetsTheInvariants : Obligations.ResetMeetsTheInvariants :=
  ⟨⟨Nat.zero_le _, Nat.zero_le _⟩, ⟨Memory.wf_nil _, Memory.wf_nil _⟩, fun _ _ => rfl, fun _ => rfl, rfl, rfl⟩

end Sys2Proof.Machine

/-! The statements of 41_alu.md about SUB, ADR, DEC and INC, those of 42_data_movement.md about LDI, and
those of 43_control.md. -/

namespace Sys2Proof.Machine

open Sys2Proof.Claims

/-! ### What each of these instructions leaves -/

section
variable (r : RegAddr) (u : Ignored) (s : State)

theorem exec_sub : exec (.sub r) s = .next (s.incPc.setAccFlags (flagsSubQuirk (s.readReg r) s.acc)) := rfl
theorem exec_dec : exec (.dec u) s = .next (s.incPc.setAccFlags (flagsSub s.acc 1)) := rfl
theorem exec_inc : exec (.inc u) s = .next (s.incPc.setAccFlags (flagsAdd s.acc 1)) := rfl
theorem exec_adr : exec (.adr r) s = .next ((s.incPc.writeReg r (flagsAdd (s.readReg r) s.acc).1).setFlags
    (flagsAdd (s.readReg r) s.acc).2) := rfl

theorem exec_nop : exec (.nop u) s = .next s.incPc := rfl
theorem exec_jid : exec (.jid r) s = .next (s.incPc.setPc (offsetOfReg (s.readReg r))) := rfl
theorem exec_hlt : exec (.hlt u) s = .next s.incPc.halt := rfl

end

/-! ### Arithmetic (41_alu.md R87, R91, R99, R100, R104) -/

theorem flagsOf_congr {f : Flags} {r : Byte} {p q : Prop} (h : p ↔ q) (hp : FlagsOf f r p) : FlagsOf f r q :=
  propext h ▸ hp

theorem flagsSubQuirk_toNat (x acc : Byte) :
    (flagsSubQuirk x acc).1.toNat = (256 + acc.toNat - x.toNat) % 256 := flagsSub_toNat acc x

/-- SUB's carry is the borrow of the reversed difference (D9). -/
theorem flagsOf_flagsSubQuirk (x acc : Byte) :
    FlagsOf (flagsSubQuirk x acc).2 (flagsSubQuirk x acc).1 (x.toNat < acc.toNat) :=
  flagsOf_resultFlags _ decide_eq_true_iff

/-- Settles O12: SUB stores `flagsSubQuirk`. -/
theorem subStoresDifferenceWithReversedCarry : Obligations.SubStoresDifferenceWithReversedCarry := fun r s =>
  ⟨oneByte_of_roundTrip (Laws.RoundTrip.sub r) rfl, _, exec_sub r s,
    flagsSubQuirk_toNat _ _, flagsOf_flagsSubQuirk _ _, accFrame_setAccFlags s _⟩

/-- Settles O9: for SUB, `1 - 0` has no borrow and yet sets the carry. -/
theorem flagsSubIsWrappedDifference : Obligations.FlagsSubIsWrappedDifference := by
  refine ⟨fun a b => ⟨flagsSub_toNat a b, flagsOf_flagsSub a b⟩,
    fun r s => ⟨_, exec_bsub r s, rfl, rfl⟩, fun r s => ⟨_, exec_cmp r s, rfl⟩,
    fun u s => ⟨_, exec_dec u s, rfl, rfl⟩, 0, { State.reset with acc := 1 }, _, exec_sub _ _, ?_⟩
  decide

/-- An advance, a write of register `r` and one of the flags leave everything else. -/
theorem regFrame_writeReg_setFlags (s : State) (r : RegAddr) (v : Byte) (f : Flags) :
    RegFrame r s ((s.incPc.writeReg r v).setFlags f) :=
  regFrame_writeReg s r v

/-- Settles O15: ADR stores the byte of `flagsAdd` in its register and the flags of `flagsAdd`. -/
theorem adrAddsAccToRegister : Obligations.AdrAddsAccToRegister := fun r s =>
  ⟨oneByte_of_roundTrip (Laws.RoundTrip.adr r) rfl, _, _, exec_adr r s, flagsAdd_toNat _ _,
    State.readReg_writeReg_self s.incPc r _, flagsOf_flagsAdd _ _, regFrame_writeReg_setFlags s r _ _, rfl, rfl⟩

/-- Settles O16: DEC stores `flagsSub` of the accumulator and 1, INC `flagsAdd`. -/
theorem decAndIncStepAccByOne : Obligations.DecAndIncStepAccByOne := by
  intro u s
  have hacc : s.acc.toNat < 256 := s.acc.isLt
  have hone : (1 : Byte).toNat = 1 := rfl
  refine ⟨⟨oneByte_of_roundTrip (Laws.RoundTrip.dec u) rfl, _, exec_dec u s, ?decAcc, ?decFlags,
      accFrame_setAccFlags s _⟩,
    ⟨oneByte_of_roundTrip (Laws.RoundTrip.inc u) rfl, _, exec_inc u s, flagsAdd_toNat s.acc 1, ?incFlags,
      accFrame_setAccFlags s _⟩⟩
  case decAcc =>
    rw [State.setAccFlags_acc, flagsSub_toNat]
    omega
  case decFlags => exact flagsOf_congr (by omega) (flagsOf_flagsSub s.acc 1)
  case incFlags => exact flagsOf_congr (by omega) (flagsOf_flagsAdd s.acc 1)

/-! ### LDI (42_data_movement.md R105) -/

theorem twoBytes_of_roundTrip {i : Instr} (hword : Laws.RoundTrip.Statement i) (hformat : i.format = .bi) :
    TwoBytes i (i.opcode * 8) i.operand := by
  obtain ⟨htoNat, -⟩ := hword
  exact ⟨hformat, htoNat⟩

theorem exec_ldi_of_lt (r : RegAddr) {s : State} (h : s.incPc.ea < 1024) :
    exec (.ldi r) s = .next (s.incPc.writeReg r (s.rom.read s.incPc.ea)).incPc := by
  rw [exec_eq, execLdi_eq, if_pos h]

theorem exec_ldi_of_le (r : RegAddr) {s : State} (h : 1024 ≤ s.incPc.ea) :
    exec (.ldi r) s =
      .next (s.incPc.raise (.immediateOutOfRange s.incPc.ea (encodeWord (.ldi r)) s.ea)) := by
  rw [exec_eq, execLdi_eq, if_neg (Nat.not_lt.mpr h)]

/-- A second advance changes nothing that the frame speaks of. -/
theorem regFrame_writeReg_incPc (s : State) (r : RegAddr) (v : Byte) :
    RegFrame r s (s.incPc.writeReg r v).incPc :=
  regFrame_writeReg s r v

/-- Settles O19, by the two cases of LDI. -/
theorem ldiLoadsFetchedImmediate : Obligations.LdiLoadsFetchedImmediate := by
  refine fun r s => ⟨twoBytes_of_roundTrip (Laws.RoundTrip.ldi r) rfl, fun he => ?_, fun he => ?_⟩
  · exact ⟨_, exec_ldi_of_lt r he, State.readReg_writeReg_self s.incPc r _, rfl,
      regFrame_writeReg_incPc s r _, rfl, rfl⟩
  · exact ⟨_, exec_ldi_of_le r he, rfl, faultFrame_incPc_raise s _⟩

/-- At `pc = 32` the advance moves to the same address on the next page (40_fetch_dispatch.md R80). -/
theorem incPc_ea_of_pc_eq {s : State} (hpc : s.pc = 32) (hpage : s.page.toNat < 255) :
    s.incPc.ea = s.ea := by
  have hpage₁ : (s.page + 1).toNat = s.page.toNat + 1 :=
    BitVec.toNat_add_of_lt (y := 1) (show s.page.toNat + 1 < 2 ^ 8 by omega)
  rw [State.ea_eq, State.ea_eq, State.incPc_pc, State.incPc_page, hpc, nextPc_wrap, nextPage_wrap, hpage₁]
  exact Nat.succ_mul s.page.toNat 32

/-- Settles O7: there LDI's immediate is its own word, and its second advance is an ordinary one. -/
theorem pageStartIsFetchedTwice : Obligations.PageStartIsFetchedTwice := by
  intro s hpc hpage
  have hpc₁ : s.incPc.pc = 0 := by rw [State.incPc_pc, hpc, nextPc_wrap]
  have hpage₁ : s.incPc.page = s.page + 1 := by rw [State.incPc_page, hpc, nextPage_wrap]
  have hea := incPc_ea_of_pc_eq hpc hpage
  refine ⟨hpc₁, hea, fun r he => ⟨_, exec_ldi_of_lt r (hea ▸ he), fun hr => ?_, ?_, ?_⟩⟩
  · rw [State.readReg_incPc, State.readReg_writeReg_self, if_neg hr, hea]
  · rw [State.incPc_pc, State.writeReg_pc, hpc₁]; rfl
  · rw [State.incPc_page, State.writeReg_pc, State.writeReg_page, hpc₁, hpage₁]; rfl

/-! ### Control transfer (43_control.md) -/

/-- A write of `pc` and `page` leaves everything else. -/
theorem controlFrame_of_writes (s : State) (pc : BitVec 6) (page : Byte) :
    ControlFrame s { s with pc := pc, page := page } :=
  ⟨fun _ => rfl, rfl, rfl, fun _ => rfl, fun _ => rfl, rfl, rfl, rfl⟩

/-- Settles O26: NOP is one advance. -/
theorem nopOnlyAdvances : Obligations.NopOnlyAdvances := fun u s =>
  ⟨oneByte_of_roundTrip (Laws.RoundTrip.nop u) rfl, _, exec_nop u s, controlFrame_of_writes s _ _, rfl, rfl⟩

/-- Settles O30: JID is one advance and a write of `pc`. -/
theorem jidSetsPcFromRegister : Obligations.JidSetsPcFromRegister := fun r s =>
  ⟨oneByte_of_roundTrip (Laws.RoundTrip.jid r) rfl, _, exec_jid r s, offsetOfReg_toNat _, rfl,
    controlFrame_of_writes s _ _⟩

/-- Settles O31: HLT is one advance and a write of `halted`. -/
theorem hltSetsHaltedAfterAdvance : Obligations.HltSetsHaltedAfterAdvance := fun u s =>
  ⟨oneByte_of_roundTrip (Laws.RoundTrip.hlt u) rfl, _, exec_hlt u s, rfl, rfl, ⟨rfl, rfl⟩,
    fun _ => rfl, rfl, rfl, fun _ => rfl, fun _ => rfl, rfl⟩

/-- Settles O25: the table is `condHolds`, and condition 0 raises by the class of its words. -/
theorem conditionTableIsTheSpecs : Obligations.ConditionTableIsTheSpecs :=
  ⟨fun _ _ _ => ⟨rfl, rfl, rfl, rfl, rfl, rfl, rfl, rfl⟩,
    fun s => ⟨⟨_, exec_of_fatalCondition rfl s, rfl⟩, ⟨_, exec_of_fatalCondition rfl s, rfl⟩⟩⟩

section
variable {c : CondCode} {k : Cond} {s : State}

theorem exec_ics_of_not_holds (hc : condOf c = some k) (hk : condHolds k s.flags = false) :
    exec (.ics c) s = .next s.incPc.incPc := by
  simp [exec_eq, execIcs_eq, hc, hk]

theorem exec_brc_of_not_holds (hc : condOf c = some k) (hk : condHolds k s.flags = false) :
    exec (.brc c) s = .next s.incPc.incPc := by
  simp [exec_eq, execBrc_eq, hc, hk]

theorem exec_ics_of_holds_of_lt (hc : condOf c = some k) (hk : condHolds k s.flags = true)
    (he : s.incPc.ea < 1024) :
    exec (.ics c) s = .next (s.incPc.setPage (pageOfImm (s.rom.read s.incPc.ea))) := by
  simp [exec_eq, execIcs_eq, hc, hk, he]

theorem exec_brc_of_holds_of_lt (hc : condOf c = some k) (hk : condHolds k s.flags = true)
    (he : s.incPc.ea < 1024) :
    exec (.brc c) s = .next (s.incPc.setPc (offsetOfImm (s.rom.read s.incPc.ea))) := by
  simp [exec_eq, execBrc_eq, hc, hk, he]

theorem exec_ics_of_holds_of_le (hc : condOf c = some k) (hk : condHolds k s.flags = true)
    (he : 1024 ≤ s.incPc.ea) :
    exec (.ics c) s =
      .next (s.incPc.raise (.immediateOutOfRange s.incPc.ea (encodeWord (.ics c)) s.ea)) := by
  simp [exec_eq, execIcs_eq, hc, hk, Nat.not_lt.mpr he]

theorem exec_brc_of_holds_of_le (hc : condOf c = some k) (hk : condHolds k s.flags = true)
    (he : 1024 ≤ s.incPc.ea) :
    exec (.brc c) s =
      .next (s.incPc.raise (.immediateOutOfRange s.incPc.ea (encodeWord (.brc c)) s.ea)) := by
  simp [exec_eq, execBrc_eq, hc, hk, Nat.not_lt.mpr he]

end

/-- ICS takes the page from the top five bits of its immediate (R114). -/
theorem pageOfImm_toNat (imm : Byte) : (pageOfImm imm).toNat = imm.toNat / 8 := by
  rw [pageOfImm, BitVec.toNat_ushiftRight, Nat.shiftRight_eq_div_pow]

/-- BRC reaches the offsets 0 to 3 (R116). -/
theorem offsetOfImm_le (imm : Byte) : (offsetOfImm imm).toNat ≤ 3 := by
  rw [offsetOfImm_toNat]
  omega

/-- Settles O29: a false condition leaves two advances. -/
theorem untakenIcsAndBrcSkipTheImmediate : Obligations.UntakenIcsAndBrcSkipTheImmediate := fun _ _ s hc hk =>
  ⟨⟨_, exec_ics_of_not_holds hc hk, ⟨rfl, rfl⟩, controlFrame_of_writes s _ _⟩,
    ⟨_, exec_brc_of_not_holds hc hk, ⟨rfl, rfl⟩, controlFrame_of_writes s _ _⟩⟩

/-- Settles O27: a true condition leaves one advance and the immediate's page, or raises. -/
theorem takenIcsSwitchesPage : Obligations.TakenIcsSwitchesPage := fun c _ s hc hk =>
  ⟨twoBytes_of_roundTrip (Laws.RoundTrip.ics c) rfl,
    fun he => ⟨_, exec_ics_of_holds_of_lt hc hk he, pageOfImm_toNat _, rfl, controlFrame_of_writes s _ _⟩,
    fun he => ⟨_, exec_ics_of_holds_of_le hc hk he, rfl, faultFrame_incPc_raise s _⟩⟩

/-- Settles O28: a true condition leaves one advance and the immediate's offset, or raises. -/
theorem takenBrcSetsPcFromTwoBits : Obligations.TakenBrcSetsPcFromTwoBits := fun c _ s hc hk =>
  ⟨twoBytes_of_roundTrip (Laws.RoundTrip.brc c) rfl,
    fun he => ⟨_, exec_brc_of_holds_of_lt hc hk he, offsetOfImm_toNat _, offsetOfImm_le _, rfl,
      controlFrame_of_writes s _ _⟩,
    fun he => ⟨_, exec_brc_of_holds_of_le hc hk he, rfl, faultFrame_incPc_raise s _⟩⟩

/-! ### Writes to register 0 (10_state.md R17) -/

/-- Settles O4: with its write dropped, RST r0 is one advance, LDI r0 two, and ADR r0 a write of the
flags. -/
theorem writesToZeroRegisterAreDropped : Obligations.WritesToZeroRegisterAreDropped :=
  ⟨fun _ _ => rfl,
    fun s => ⟨_, exec_rst 0 s, controlFrame_of_writes s _ _, rfl, rfl⟩,
    fun s he => ⟨_, exec_ldi_of_lt 0 he, controlFrame_of_writes s _ _, rfl, rfl⟩,
    fun s => ⟨_, exec_adr 0 s, fun _ => rfl, rfl, regFrame_writeReg_setFlags s 0 _ _⟩⟩

end Sys2Proof.Machine

/-! The statements about the host's side: the driver and the console's spelling (60_exceptions.md section 6),
the image text and the load (70_reset_and_hazards.md). -/

namespace Sys2Proof.Machine

open Sys2Proof.Claims

/-! ### The driver (60_exceptions.md R137, 70_reset_and_hazards.md R147) -/

theorem runSteps_succ_of_live {s : State} (h : s.Live) (n : Nat) :
    runSteps (n + 1) s = runSteps n (stepState s) := by
  rw [runSteps, step_eq h]

theorem drive_succ_of_live {s : State} (h : s.Live) (n : Nat) :
    drive (n + 1) s = ((stepState s).console ++ (drive n (stepState s).flush.2).1,
      (drive n (stepState s).flush.2).2) := by
  rw [drive, step_eq h]
  rfl

/-- A state that is not live has no next state. -/
theorem step_ne_next_of_not_live {s : State} (h : ¬ s.Live) (t : State) : step s ≠ .next t :=
  fun hstep => h (live_of_step hstep)

theorem runSteps_of_not_live {s : State} (h : ¬ s.Live) (n : Nat) : runSteps n s = s := by
  cases n with
  | zero => rfl
  | succ n =>
    rw [runSteps]
    split
    · exact absurd ‹_› (step_ne_next_of_not_live h _)
    all_goals rfl

theorem drive_of_not_live {s : State} (h : ¬ s.Live) (n : Nat) : drive n s = ([], s) := by
  cases n with
  | zero => rfl
  | succ n =>
    rw [drive]
    split
    · exact absurd ‹_› (step_ne_next_of_not_live h _)
    all_goals rfl

/-- A run never looks at what the console holds before it, and leaves it in front. -/
theorem runSteps_prependConsole (n : Nat) (s : State) (c : List Byte) :
    runSteps n { s with console := c ++ s.console } =
      { runSteps n s with console := c ++ (runSteps n s).console } := by
  induction n generalizing s with
  | zero => rfl
  | succ n ih =>
    by_cases h : s.Live
    · have h' : ({ s with console := c ++ s.console } : State).Live := h
      rw [runSteps_succ_of_live h', runSteps_succ_of_live h, stepState_withConsole, List.append_assoc,
        ← stepState_console, ih]
    · have h' : ¬ ({ s with console := c ++ s.console } : State).Live := h
      rw [runSteps_of_not_live h', runSteps_of_not_live h]

/-- What a run appends does not depend on whether the console was flushed first. -/
theorem runSteps_eq_of_flush (n : Nat) (s : State) :
    runSteps n s =
      { runSteps n s.flush.2 with console := s.console ++ (runSteps n s.flush.2).console } := by
  rw [← runSteps_prependConsole n s.flush.2 s.console, State.flush_console, List.append_nil]
  rfl

/-- Flushing an empty console changes nothing. -/
theorem State.withConsole_nil {s : State} (h : s.console = []) : { s with console := [] } = s := by
  rw [← h]

/-- The driver emits the console of the unflushed run, round by round. -/
theorem drive_eq_runSteps (n : Nat) {s : State} (h : s.console = []) :
    drive n s = ((runSteps n s).console, { runSteps n s with console := [] }) := by
  induction n generalizing s with
  | zero =>
    show ([], s) = (s.console, { s with console := [] })
    rw [h, State.withConsole_nil h]
  | succ n ih =>
    by_cases hlive : s.Live
    · rw [drive_succ_of_live hlive, runSteps_succ_of_live hlive, ih (State.flush_console _),
        runSteps_eq_of_flush n (stepState s)]
    · rw [drive_of_not_live hlive, runSteps_of_not_live hlive, h, State.withConsole_nil h]

/-- Settles O54, by `drive_eq_runSteps`. -/
theorem driverEmitsTheRunsOutput : Obligations.DriverEmitsTheRunsOutput := fun n _ h =>
  ⟨congrArg Prod.fst (drive_eq_runSteps n h), congrArg Prod.snd (drive_eq_runSteps n h)⟩

/-! ### The spelling of a byte (60_exceptions.md R136) -/

/-- The digits that `spell` writes before the line end. -/
def decimalDigits (n : Nat) : List Char :=
  if n < 10 then [digitChar n]
  else if n < 100 then [digitChar (n / 10), digitChar n]
  else [digitChar (n / 100), digitChar (n / 10), digitChar n]

theorem spell_eq (v : Byte) : spell v = decimalDigits v.toNat ++ ['\n'] := rfl

/-- The digits of a number of at most three digits, with the guard of each length. -/
theorem decimalDigits_cases (n : Nat) :
    (n < 10 ∧ decimalDigits n = [digitChar n]) ∨
    (10 ≤ n ∧ n < 100 ∧ decimalDigits n = [digitChar (n / 10), digitChar n]) ∨
    (100 ≤ n ∧ decimalDigits n = [digitChar (n / 100), digitChar (n / 10), digitChar n]) := by
  unfold decimalDigits
  split
  · exact .inl ⟨‹_›, rfl⟩
  · split
    · exact .inr (.inl ⟨by omega, ‹_›, rfl⟩)
    · exact .inr (.inr ⟨by omega, rfl⟩)

theorem toNat_zero_char : '0'.toNat = 48 := rfl

theorem digitChar_range (n : Nat) : '0'.toNat ≤ (digitChar n).toNat ∧ (digitChar n).toNat ≤ '9'.toNat := by
  have hnine : '9'.toNat = 57 := rfl
  rw [digitChar_toNat, toNat_zero_char, hnine]
  omega

theorem digitChar_value (n : Nat) : (digitChar n).toNat - '0'.toNat = n % 10 := by
  rw [digitChar_toNat, toNat_zero_char]
  omega

theorem mod_ten_of_digitChar_eq_zero {n : Nat} (h : digitChar n = '0') : n % 10 = 0 := by
  rw [← digitChar_value, h]
  rfl

theorem decimalDigits_range {n : Nat} {c : Char} (h : c ∈ decimalDigits n) :
    '0'.toNat ≤ c.toNat ∧ c.toNat ≤ '9'.toNat := by
  have hdigit : ∃ m, c = digitChar m := by
    rcases decimalDigits_cases n with ⟨-, e⟩ | ⟨-, -, e⟩ | ⟨-, e⟩ <;> rw [e] at h <;> simp at h
    · exact ⟨_, h⟩
    · exact h.elim (⟨_, ·⟩) (⟨_, ·⟩)
    · exact h.elim (⟨_, ·⟩) fun h => h.elim (⟨_, ·⟩) (⟨_, ·⟩)
  obtain ⟨m, rfl⟩ := hdigit
  exact digitChar_range m

theorem decimalDigits_value {n : Nat} (h : n < 1000) :
    (decimalDigits n).foldl (fun n c => 10 * n + (c.toNat - '0'.toNat)) 0 = n := by
  rcases decimalDigits_cases n with ⟨hn, e⟩ | ⟨-, hn, e⟩ | ⟨-, e⟩ <;> rw [e] <;>
    simp only [List.foldl_cons, List.foldl_nil, digitChar_value] <;> omega

/-- The first digit is 0 for the number 0 alone, whose digits are that one. -/
theorem decimalDigits_no_leading_zero {n : Nat} (h : n < 1000) (hzero : (decimalDigits n).head? = some '0') :
    decimalDigits n = ['0'] := by
  rcases decimalDigits_cases n with ⟨-, e⟩ | ⟨hlow, hhigh, e⟩ | ⟨hlow, e⟩ <;> rw [e] at hzero ⊢ <;>
    have hfirst := Option.some.inj hzero
  · rw [hfirst]
  · have := mod_ten_of_digitChar_eq_zero hfirst
    omega
  · have := mod_ten_of_digitChar_eq_zero hfirst
    omega

theorem decimalDigits_ne_nil (n : Nat) : decimalDigits n ≠ [] := by
  rcases decimalDigits_cases n with ⟨-, e⟩ | ⟨-, -, e⟩ | ⟨-, e⟩ <;> rw [e] <;> nofun

/-- Settles O55: a byte has at most three digits. -/
theorem flushedByteIsSpelledInDecimal : Obligations.FlushedByteIsSpelledInDecimal := by
  intro v
  have hv : v.toNat < 1000 := v.isLt.trans (by decide)
  exact ⟨decimalDigits v.toNat, spell_eq v, fun _ => decimalDigits_range, decimalDigits_value hv,
    decimalDigits_no_leading_zero hv, decimalDigits_ne_nil _⟩

end Sys2Proof.Machine

/-! The statements of 70_reset_and_hazards.md about the image text and the host's calls. -/

namespace Sys2Proof.Machine

open Sys2Proof.Claims

/-! ### Tokens (70_reset_and_hazards.md R146) -/

/-- A string of `0` and `1` is read from its first digit on, as `binaryValue` reads it. -/
theorem digitsValue_of_binary {t : List Char} (h : ∀ c ∈ t, c = '0' ∨ c = '1') (n : Nat) :
    digitsValue n t = some (t.foldl (fun n c => 2 * n + if c = '1' then 1 else 0) n) := by
  induction t generalizing n with
  | nil => rfl
  | cons c t ih =>
    have ht : ∀ d ∈ t, d = '0' ∨ d = '1' := fun d hd => h d (List.mem_cons_of_mem _ hd)
    rcases h c List.mem_cons_self with rfl | rfl
    · exact ih ht (2 * n)
    · exact ih ht (2 * n + 1)

theorem digitsValue_of_not_binary {t : List Char} (h : ¬ ∀ c ∈ t, c = '0' ∨ c = '1') (n : Nat) :
    digitsValue n t = none := by
  cases hv : digitsValue n t with
  | none => rfl
  | some v => exact absurd (digits_of_digitsValue hv) h

/-- A token has the value of the literal that it is. -/
theorem tokenValue_eq_literalValue (t : List Char) : tokenValue t = literalValue t := by
  cases t with
  | nil => rfl
  | cons c t =>
    show (digitsValue 0 (c :: t)).filter (· ≤ 255) = literalValue (c :: t)
    unfold literalValue
    by_cases hbinary : ∀ d ∈ c :: t, d = '0' ∨ d = '1'
    · rw [digitsValue_of_binary hbinary]
      show (some (binaryValue (c :: t))).filter (· ≤ 255) = _
      by_cases hle : binaryValue (c :: t) ≤ 255
      · rw [if_pos ⟨List.cons_ne_nil _ _, hbinary, hle⟩]
        simp [hle]
      · rw [if_neg fun ⟨_, _, h⟩ => hle h]
        simpa using hle
    · rw [digitsValue_of_not_binary hbinary, if_neg fun ⟨_, h, _⟩ => hbinary h]
      rfl

/-! ### Lines (R145) -/

theorem isSpace_iff (c : Char) : isSpace c = true ↔ IsBlank c := by
  simp [isSpace, IsBlank, or_assoc]

theorem isSpace_eq_false_of_blankFree {t : List Char} (h : BlankFree t) : ∀ c ∈ t, isSpace c = false :=
  fun c hc => Bool.eq_false_iff.mpr fun hs => h c hc ((isSpace_iff c).mp hs)

/-- Cutting a line of tokens at its blanks gives the tokens. -/
theorem splitAtChars_lineOfTokens {t : List Char} {more : List (Char × List Char)} (ht : BlankFree t)
    (hmore : ∀ p ∈ more, IsBlank p.1 ∧ BlankFree p.2) :
    splitAtChars isSpace (lineOfTokens t more) = t :: more.map Prod.snd := by
  induction more generalizing t with
  | nil =>
    rw [lineOfTokens, List.flatMap_nil, List.append_nil]
    exact splitAtChars_none (isSpace_eq_false_of_blankFree ht)
  | cons p more ih =>
    obtain ⟨hblank, hfree⟩ := hmore p List.mem_cons_self
    have hrest := ih hfree fun q hq => hmore q (List.mem_cons_of_mem _ hq)
    show splitAtChars isSpace (t ++ p.1 :: lineOfTokens p.2 more) = _
    rw [splitAtChars_append (isSpace_eq_false_of_blankFree ht) ((isSpace_iff _).mpr hblank), hrest]
    rfl

theorem lineBytes_comment (comment : List Char) : lineBytes ('/' :: comment) = [] := rfl

/-- A line that is no comment gives the bytes of its pieces. -/
theorem lineBytes_of_head?_ne {line : List Char} (h : line.head? ≠ some '/') :
    lineBytes line = bytesOfTokens (splitAtChars isSpace line) := by
  have hpieces : lineBytes line =
      (splitAtChars isSpace line).filterMap fun t => (tokenValue t).map (BitVec.ofNat 8) := by
    unfold lineBytes
    split
    · exact absurd rfl h
    · rfl
  rw [hpieces, bytesOfTokens, List.map_filterMap]
  simp only [tokenValue_eq_literalValue]

/-- A line starts with its first token, or with the blank behind an empty one. -/
theorem head?_lineOfTokens_ne {t : List Char} {more : List (Char × List Char)} (ht : t.head? ≠ some '/')
    (hmore : ∀ p ∈ more, IsBlank p.1) : (lineOfTokens t more).head? ≠ some '/' := by
  cases t with
  | cons c t => exact ht
  | nil =>
    cases more with
    | nil => exact ht
    | cons p more =>
      intro hhead
      have hblank := hmore p List.mem_cons_self
      rw [show p.1 = '/' from Option.some.inj hhead] at hblank
      revert hblank
      simp [IsBlank]

/-! ### Texts (R145, R146) -/

theorem ne_newline_of_not_mem {line : List Char} (h : '\n' ∉ line) : ∀ c ∈ line, (c == '\n') = false :=
  fun _ hc => beq_false_of_ne (ne_of_mem_of_not_mem hc h)

theorem imageOfText_line {line : List Char} (h : '\n' ∉ line) : imageOfText line = lineBytes line := by
  rw [imageOfText, splitAtChars_none (ne_newline_of_not_mem h), List.flatMap_singleton]

theorem imageOfText_line_append {line : List Char} (h : '\n' ∉ line) (rest : List Char) :
    imageOfText (line ++ '\n' :: rest) = lineBytes line ++ imageOfText rest := by
  rw [imageOfText, splitAtChars_append (ne_newline_of_not_mem h) (beq_self_eq_true _), List.flatMap_cons]
  rfl

/-- Settles O56, from tokens to lines to texts. -/
theorem commentLinesAddNoByte : Obligations.CommentLinesAddNoByte := by
  refine ⟨tokenValue_eq_literalValue, lineBytes_comment, fun t more ht hhead hmore => ?_,
    fun line rest h => ⟨imageOfText_line h, imageOfText_line_append h rest⟩, fun comment rest h => ?_⟩
  · rw [lineBytes_of_head?_ne (head?_lineOfTokens_ne hhead fun p hp => (hmore p hp).1),
      splitAtChars_lineOfTokens ht hmore]
  · have hline : '\n' ∉ '/' :: comment := by simp [h]
    rw [imageOfText_line_append hline, lineBytes_comment, List.nil_append]

/-! ### The host's calls (R143, R149) -/

theorem Session.calls_append {x z : Session} {cs ds : List HostCall} :
    x.calls (cs ++ ds) = some z ↔ ∃ y, x.calls cs = some y ∧ y.calls ds = some z := by
  induction cs generalizing x with
  | nil => simp
  | cons c cs ih =>
    rw [List.cons_append, Session.calls_cons]
    simp only [ih, Session.calls_cons]
    constructor
    · rintro ⟨y, hc, w, hcs, hds⟩
      exact ⟨w, ⟨y, hc, hcs⟩, hds⟩
    · rintro ⟨w, ⟨y, hc, hcs⟩, hds⟩
      exact ⟨y, hc, w, hcs, hds⟩

/-- No call but a load writes ROM. -/
theorem Session.call_rom {x y : Session} {c : HostCall} (hc : ∀ image, c ≠ .load image)
    (h : x.call c = some y) : y.core.rom = x.core.rom := by
  cases c with
  | load image => exact absurd rfl (hc image)
  | step =>
    obtain ⟨t, hstep, rfl⟩ := Session.step_eq_some.mp h
    exact noStepWritesRom _ t hstep
  | flush =>
    obtain rfl : x.flush.2 = y := Option.some.inj h
    rw [Session.core_flush]

/-- Calls without a load leave ROM as it was. -/
theorem Session.calls_rom {x z : Session} {cs : List HostCall} (hcs : ∀ image, .load image ∉ cs)
    (h : x.calls cs = some z) : z.core.rom = x.core.rom := by
  induction cs generalizing x with
  | nil => obtain rfl : x = z := Option.some.inj h; rfl
  | cons c cs ih =>
    obtain ⟨y, hcall, hrest⟩ := Session.calls_cons.mp h
    have hc : ∀ image, c ≠ .load image := fun image hload => hcs image (hload ▸ List.mem_cons_self)
    rw [ih (fun image hmem => hcs image (List.mem_cons_of_mem _ hmem)) hrest, Session.call_rom hc hcall]

/-- A started core stays started, and takes no load. -/
theorem Session.call_started {s : State} {y : Session} {c : HostCall}
    (h : (Session.started s).call c = some y) : (∀ image, c ≠ .load image) ∧ ∃ t, y = .started t := by
  cases c with
  | load image => cases h
  | step =>
    obtain ⟨t, -, rfl⟩ := Session.step_eq_some.mp h
    exact ⟨nofun, t, rfl⟩
  | flush => exact ⟨nofun, _, (Option.some.inj h).symm⟩

/-- Among the calls on a started core is no load. -/
theorem Session.load_not_mem_of_calls_started {s : State} {z : Session} {cs : List HostCall}
    (h : (Session.started s).calls cs = some z) (image : List Byte) : .load image ∉ cs := by
  induction cs generalizing s with
  | nil => exact List.not_mem_nil
  | cons c cs ih =>
    obtain ⟨y, hcall, hrest⟩ := Session.calls_cons.mp h
    obtain ⟨hc, t, rfl⟩ := Session.call_started hcall
    rw [List.mem_cons, not_or]
    exact ⟨(hc image).symm, ih hrest⟩

/-- Only a flush of a constructed core leaves a constructed core. -/
theorem Session.call_eq_constructed {x : Session} {c : HostCall} (h : x.call c = some .constructed) :
    x = .constructed ∧ c = .flush := by
  cases x with
  | started s =>
    obtain ⟨-, t, ht⟩ := Session.call_started h
    cases ht
  | constructed =>
    cases c with
    | load image =>
      rw [Session.call_load, Session.load_eq_some] at h
      obtain ⟨-, -, ht⟩ := h
      cases ht
    | step =>
      rw [Session.call_step, Session.step_eq_some] at h
      obtain ⟨t, -, ht⟩ := h
      cases ht
    | flush => exact ⟨rfl, rfl⟩

/-- Calls after which the core counts as constructed are flushes. -/
theorem Session.eq_flush_of_calls_eq_constructed {x : Session} {cs : List HostCall}
    (h : x.calls cs = some .constructed) : x = .constructed ∧ ∀ c ∈ cs, c = .flush := by
  induction cs generalizing x with
  | nil => exact ⟨Option.some.inj h, nofun⟩
  | cons c cs ih =>
    obtain ⟨y, hcall, hrest⟩ := Session.calls_cons.mp h
    obtain ⟨rfl, hcs⟩ := ih hrest
    obtain ⟨hx, hc⟩ := Session.call_eq_constructed hcall
    exact ⟨hx, List.forall_mem_cons.mpr ⟨hc, hcs⟩⟩

/-- Settles O57: a load is admitted to a constructed core alone, which only flushes leave one, and it starts
the core. -/
theorem romIsLoadedOnceBeforeTheFirstStep : Obligations.RomIsLoadedOnceBeforeTheFirstStep := by
  refine fun calls x h => ⟨fun before after image hcalls => ?_, fun hnone a => ?_⟩
  · subst hcalls
    obtain ⟨y, hbefore, hload⟩ := Session.calls_append.mp h
    obtain ⟨z, hcall, hafter⟩ := Session.calls_cons.mp hload
    obtain ⟨rfl, hfits, rfl⟩ := Session.load_eq_some.mp hcall
    have hother := Session.load_not_mem_of_calls_started hafter
    refine ⟨(Session.eq_flush_of_calls_eq_constructed hbefore).2, hother, hfits, fun a => ?_⟩
    rw [Session.calls_rom hother hafter]
    exact read_rom_reset_withImage image a
  · rw [Session.calls_rom hnone h]
    rfl

end Sys2Proof.Machine
